-- ==== Sys2Proof/Word.lean ====
section
/-! DEFINITION. The word types of the block (00_scope.md R7). -/

namespace Sys2Proof

/-- A byte of MEM, a sample, or a byte of an RLE stream (R7). -/
abbrev Byte := BitVec 8

/-- A register or a command word (R7). -/
abbrev Word := BitVec 32

/-- The bit pattern of one IEEE 754 binary64 datum (R7, R10). -/
abbrev F64 := BitVec 64

end Sys2Proof
end

