-- ==== Sys2Proof/Syntax.lean ====
section
/-! DEFINITION. The commands of the block, one constructor per row of spec/opcode_table.json. -/

namespace Sys2Proof

/-- The seven commands (30_encoding.md R81). A command word has no operand field (R82): every
operand comes from LATCH, so no constructor takes an argument. -/
inductive Instr where
  /-- RLE.ENC, word 0x00000001 (42_rle.md R140). -/
  | rleEnc
  /-- RLE.DEC, word 0x00000002 (42_rle.md R143). -/
  | rleDec
  /-- DCT, word 0x00000003 (43_dct.md R161). -/
  | dct
  /-- IDCT, word 0x00000004 (43_dct.md R164). -/
  | idct
  /-- IDCT.T, word 0x00000014 (43_dct.md R165). -/
  | idctT
  /-- QUANT, word 0x00000005 (44_quantizer.md R180). -/
  | quant
  /-- PSNR, word 0x00000006 (41_psnr.md R130). -/
  | psnr
  deriving DecidableEq, Repr

end Sys2Proof
end

