-- ==== Sys2Proof/WellFormed.lean ====
section
/-! DEFINITION. The fields of a command word and the checks that make it one of the seven commands
(30_encoding.md R80, R83). -/

namespace Sys2Proof

/-- The three fields of a command word (R80): OP = bits 3:0, RND = bit 4, RSV = bits 31:5. -/
structure CmdWord where
  op : BitVec 4
  rnd : Bool
  rsv : BitVec 27
  deriving DecidableEq, Repr

/-- RSV must be 0 (R80, R83). -/
def CmdWord.reservedClear (c : CmdWord) : Bool := c.rsv == 0

/-- RND must be 0 for every OP but 4 (R80, R83). -/
def CmdWord.roundingAllowed (c : CmdWord) : Bool := !c.rnd || c.op == 4

/-- OP 0 and OP 7..15 select no operation (R83). -/
def CmdWord.opDefined (c : CmdWord) : Bool := 1 ≤ c.op.toNat && c.op.toNat ≤ 6

/-- The three checks together: the word is one of the seven of R81. -/
def CmdWord.wellFormed (c : CmdWord) : Bool :=
  c.reservedClear && c.roundingAllowed && c.opDefined

/-- A command has no operands in its word (R82), so a term of `Instr` has nothing to check: what can
be ill-formed is a word, by `CmdWord.wellFormed`. -/
def Instr.wellFormed (_ : Instr) : Bool := true

end Sys2Proof
end

