-- ==== Sys2Proof/Decode.lean ====
section
/-! DEFINITION. The decoder of 30_encoding.md R81, total on every word, and the encoder beside it. -/

namespace Sys2Proof

/-- Why a word decodes to ILLEGAL (R81, R83), and why bytes are no command word at all (R84). The
machine treats every such word alike: ILLEGAL_CMD (40_command.md R105). -/
inductive Illegal where
  /-- a 1 in bits 31:5 -/
  | reservedBits
  /-- RND = 1 with OP other than 4 -/
  | roundingBit
  /-- OP = 0 or OP = 7..15 -/
  | undefinedOp
  /-- not exactly the four bytes of one 32-bit CMD write (R84) -/
  | notAWord
  deriving DecidableEq, Repr

/-- The fields of a word (R80). -/
def cmdFields (w : Word) : CmdWord :=
  { op := w.extractLsb' 0 4, rnd := w.getLsbD 4, rsv := w.extractLsb' 5 27 }

/-- The word that holds the given fields (R80). -/
def cmdPack (c : CmdWord) : Word := c.rsv ++ (BitVec.ofBool c.rnd ++ c.op)

/-- `Decode` of R81, on the fields, its tests in the order the rule gives them. -/
def decodeFields (c : CmdWord) : Except Illegal Instr :=
  if c.reservedClear = false then .error .reservedBits
  else if c.roundingAllowed = false then .error .roundingBit
  else
    match c.op.toNat with
    | 1 => .ok .rleEnc
    | 2 => .ok .rleDec
    | 3 => .ok .dct
    | 4 => if c.rnd then .ok .idctT else .ok .idct
    | 5 => .ok .quant
    | 6 => .ok .psnr
    | _ => .error .undefinedOp

/-- `Decode(w)` of R81. -/
def decode (w : Word) : Except Illegal Instr := decodeFields (cmdFields w)

/-- The fields of each command's word: the OP and RND columns of R81. -/
def instrFields : Instr → CmdWord
  | .rleEnc => { op := 1, rnd := false, rsv := 0 }
  | .rleDec => { op := 2, rnd := false, rsv := 0 }
  | .dct => { op := 3, rnd := false, rsv := 0 }
  | .idct => { op := 4, rnd := false, rsv := 0 }
  | .idctT => { op := 4, rnd := true, rsv := 0 }
  | .quant => { op := 5, rnd := false, rsv := 0 }
  | .psnr => { op := 6, rnd := false, rsv := 0 }

/-- The command word of each command (R81). -/
def encode (i : Instr) : Word := cmdPack (instrFields i)

/-- The four bytes of a word, least significant first (20_memory.md R62). -/
def wordBytes (w : Word) : List Byte :=
  [w.extractLsb' 0 8, w.extractLsb' 8 8, w.extractLsb' 16 8, w.extractLsb' 24 8]

/-- The decoder on the bytes of a CMD write: a command is always exactly 32 bits (R84), laid out
little-endian (R62). [log 17] -/
def decodeBytes : List Byte → Except Illegal Instr
  | [b0, b1, b2, b3] => decode (b3 ++ (b2 ++ (b1 ++ b0)))
  | _ => .error .notAWord

/-- The first `n` bytes of a number, least significant first. -/
def numberBytes : Nat → Nat → List Byte
  | 0, _ => []
  | n + 1, v => BitVec.ofNat 8 v :: numberBytes n (v / 256)

/-- The instruction the decoder reads from an instruction whose bits are `w`, the lowest `nbits`
of them given and every higher bit 0. The command word is 4 bytes; bits given above bit 31 make
more bytes, which are no command word (R84). -/
def decodeTableWord (nbits w : Nat) : Option Instr :=
  let v := w % 2 ^ nbits
  let n := if v < 2 ^ 32 then 4 else (Nat.log2 v) / 8 + 1
  match decodeBytes (numberBytes n v) with
  | .ok i => some i
  | .error _ => none

end Sys2Proof
end

