-- ==== Sys2Proof/Config.lean ====
section
/-! DEFINITION. What the spec leaves open: the three parameters of 00_scope.md R6 and the one source
of free bytes (R231, R233). Every constant here is opaque and has no body: no proof can see its
value, so a claim about the model holds for every instance. -/

namespace Sys2Proof.Config

/-- MEM_BYTES (R6) is a multiple of 8 with 8 <= MEM_BYTES <= 2^31. Every such number is
`8 * (g + 1)` for exactly one 28-bit `g`; this is that `g`. [log 1] -/
opaque memGranules : BitVec 28

/-- MEM_BYTES (R6): the size of the buffer memory in bytes. [log 1] -/
def memBytes : Nat := 8 * (memGranules.toNat + 1)

/-- COS_FN (R6): the cosine of DCT and IDCT; total, nothing assumed. [log 2] -/
opaque cosFn : F64 → F64

/-- LOG10_FN (R6): the base-10 logarithm of PSNR; total, nothing assumed. [log 2] -/
opaque log10Fn : F64 → F64

/-- `freeByte d a`: the unspecified byte at MEM address `a` in draw number `d`. Draws are the
power-on contents of MEM (R231) and the destination window after a soft reset during a command
(R233). [log 3, log 4] -/
opaque freeByte : Nat → Nat → Byte

end Sys2Proof.Config
end

