-- ==== Sys2Proof/Machine/State.lean ====
section
/-! DEFINITION. The state of the block (10_state.md R22), the turns that move it, and the state after
reset (70_reset_and_hazards.md R230). -/

namespace Sys2Proof.Machine

/-- CTRL (10_state.md R26): the two interrupt enables. SRST is an action and holds no bit. -/
structure Ctrl where
  ie : Bool
  heie : Bool
  deriving DecidableEq, Repr

/-- STATUS (10_state.md R28). The reserved bits read as zero and hold nothing. -/
structure Status where
  busy : Bool
  done : Bool
  err : Bool
  errcode : BitVec 4
  herr : Bool
  deriving DecidableEq, Repr

/-- LATCH (10_state.md R37): the hidden copy of the operand registers an accepted issue takes. -/
structure Latch where
  cmd : Word
  len : Word
  src : Word
  src2 : Word
  dst : Word
  cap : Word
  q : Word
  deriving DecidableEq, Repr

/-- MEM (20_memory.md R60): `size` is MEM_BYTES, the number of its bytes [log 1]; `cells` lists the
bytes written since the last hard reset, addresses strictly rising; `epoch` is the number of the
power-on draw that every unlisted byte comes from [log 3]. -/
structure Memory where
  size : Nat
  epoch : Nat
  cells : List Host.Cell
  deriving DecidableEq, Repr

/-- The width of a host access in bytes: 1, 2, 4 or 8 (10_state.md R24, 20_memory.md R63). -/
inductive Width where
  | w1 | w2 | w4 | w8
  deriving DecidableEq, Repr

/-- One host transaction (10_state.md R24, R25; 20_memory.md R63, R64). A write of `n` bytes carries
its value in the low `8 * n` bits of `v`. [log 11] -/
inductive Transaction where
  | regRead (off : BitVec 12) (w : Width)
  | regWrite (off : BitVec 12) (w : Width) (v : BitVec 64)
  | memRead (addr : BitVec 32) (w : Width)
  | memWrite (addr : BitVec 32) (w : Width) (v : BitVec 64)
  deriving DecidableEq, Repr

/-- Who moves next in the single total order of 20_memory.md R72: the host with one transaction, the
engine with its completion step (if it is enabled), or the platform's reset input
(70_reset_and_hazards.md R230). [log 5, log 10] -/
inductive Turn where
  | host (t : Transaction)
  | engine
  | hardReset
  deriving DecidableEq, Repr

/-- The registers of the register port (10_state.md R23). -/
inductive RegName where
  | ctrl | status | cmd | len | srcAddr | src2Addr | dstAddr | dstCap | quality
  | outLen | psnrLo | psnrHi | memsz
  deriving DecidableEq, Repr

/-- The command errors (60_exceptions.md R200), codes 1 to 7. -/
inductive CmdError where
  | illegalCmd | invalidParam | malformedStream | align | range | overlap | capacity
  deriving DecidableEq, Repr

/-- The whole machine: the tuple of R22, and the model's own fields `draws`, `turns` and `reply`. -/
structure State where
  ctrl : Ctrl
  status : Status
  cmd : Word
  len : Word
  srcAddr : Word
  src2Addr : Word
  dstAddr : Word
  dstCap : Word
  quality : Word
  outLen : Word
  psnrLo : Word
  psnrHi : Word
  latch : Latch
  mem : Memory
  /-- the model's own: the next unused draw number of `Config.freeByte` [log 14] -/
  draws : Nat
  /-- the model's own: the interleaving still to come [log 5] -/
  turns : List Turn
  /-- the model's own: what the last host transaction returned [log 6] -/
  reply : Option (BitVec 64)
  deriving DecidableEq, Repr

/-- Reasons to stop with a fault. There are none: no behaviour of this hardware is stuck
(93_implementation_defined.md, end of section 2), every command error is a completion
(60_exceptions.md R205) and every host access error is HERR (R202). [log 12] -/
inductive Fault where
  deriving DecidableEq, Repr

/-- Reasons to refuse an instruction. -/
inductive Refusal where
  /-- Raised by `exec`'s arm of an instruction that has no meaning yet, and by nothing else; no arm
  raises it in this model. Safe: the machine stops where the hardware goes on. -/
  | notModelled (mnemonic : String)
  deriving DecidableEq, Repr

/-- LATCH after reset (R230): all fields 0. -/
def Latch.zero : Latch :=
  { cmd := 0, len := 0, src := 0, src2 := 0, dst := 0, cap := 0, q := 0 }

/-- The machine right after a hard reset (R230): every register at its reset value, no byte of MEM
known (R231), no turn waiting. [log 1, log 3, log 5, log 6, log 7, log 14] -/
def State.reset : State :=
  { ctrl := { ie := false, heie := false }
    status := { busy := false, done := false, err := false, errcode := 0, herr := false }
    cmd := 0, len := 0, srcAddr := 0, src2Addr := 0, dstAddr := 0, dstCap := 0, quality := 0
    outLen := 0, psnrLo := 0, psnrHi := 0
    latch := Latch.zero
    mem := { size := Config.memBytes, epoch := 0, cells := [] }
    draws := 1, turns := [], reply := none }

end Sys2Proof.Machine
end

