-- ==== Sys2Proof/Machine/Flags.lean ====
section
/-! DEFINITION. Every computation over CTRL and STATUS: their read values, what an issue, a completion
and a host write do to them, and IRQ. -/

namespace Sys2Proof.Machine

/-- The code of a command error (60_exceptions.md R200). -/
def CmdError.code : CmdError → BitVec 4
  | .illegalCmd => 1
  | .invalidParam => 2
  | .malformedStream => 3
  | .align => 4
  | .range => 5
  | .overlap => 6
  | .capacity => 7

/-- The read value of CTRL: `zext_32({HEIE, IE})` (10_state.md R26). -/
def Ctrl.word (c : Ctrl) : Word := (BitVec.ofBool c.heie ++ BitVec.ofBool c.ie).setWidth 32

/-- CTRL after a write of `v` with bit 2 clear (10_state.md R27). -/
def Ctrl.ofWord (v : Word) : Ctrl := { ie := v.getLsbD 0, heie := v.getLsbD 1 }

/-- The read value of STATUS: `zext_32({HERR, ERRCODE, 0, ERR, DONE, BUSY})` (10_state.md R28). -/
def Status.word (t : Status) : Word :=
  (BitVec.ofBool t.herr ++ (t.errcode ++ (0#1 ++
    (BitVec.ofBool t.err ++ (BitVec.ofBool t.done ++ BitVec.ofBool t.busy))))).setWidth 32

/-- STATUS after an accepted issue (40_command.md R100): HERR is kept. -/
def Status.issued (t : Status) : Status :=
  { t with busy := true, done := false, err := false, errcode := 0 }

/-- STATUS after an error completion (40_command.md R112): HERR is kept. -/
def Status.failed (e : CmdError) (t : Status) : Status :=
  { t with busy := false, done := true, err := true, errcode := e.code }

/-- STATUS after a success completion (40_command.md R113): HERR is kept. -/
def Status.succeeded (t : Status) : Status :=
  { t with busy := false, done := true, err := false, errcode := 0 }

/-- STATUS after a host access error (60_exceptions.md R202). -/
def Status.withHerr (t : Status) : Status := { t with herr := true }

/-- STATUS after a host write of `v` (10_state.md R29): write 1 to clear DONE, ERR with ERRCODE, and
HERR; every other bit of `v` is ignored. -/
def Status.clear (v : Word) (t : Status) : Status :=
  { t with
    done := t.done && !v.getLsbD 1
    err := t.err && !v.getLsbD 2
    errcode := if v.getLsbD 2 then 0 else t.errcode
    herr := t.herr && !v.getLsbD 8 }

/-- The interrupt output (10_state.md R38; 60_exceptions.md R203). -/
def irq (s : State) : Bool :=
  (s.ctrl.ie && s.status.done) || (s.ctrl.heie && s.status.herr)

end Sys2Proof.Machine
end

