-- ==== Sys2Proof/Machine/Float.lean ====
section
/-! DEFINITION. IEEE 754 binary64 as 00_scope.md R10 and R11 use it. Every finite datum is a whole
number of units of 2^-1074, so each operation converts its operands to exact integers, computes an
exact quotient, and rounds once, to nearest, ties to even. [log 8, log 9] -/

namespace Sys2Proof.Machine

/-! ## The parts of a datum -/

/-- The sign bit. -/
def fsign (x : F64) : Bool := x.msb

/-- The biased exponent, bits 62:52. -/
def fexp (x : F64) : Nat := x.toNat / 2 ^ 52 % 2 ^ 11

/-- The fraction, bits 51:0. -/
def ffrac (x : F64) : Nat := x.toNat % 2 ^ 52

def isNaN (x : F64) : Bool := fexp x == 2047 && ffrac x != 0

def isInf (x : F64) : Bool := fexp x == 2047 && ffrac x == 0

def isFinite (x : F64) : Bool := fexp x != 2047

/-- The magnitude of a finite datum, in units of 2^-1074. -/
def fmag (x : F64) : Nat :=
  if fexp x = 0 then ffrac x else (2 ^ 52 + ffrac x) * 2 ^ (fexp x - 1)

/-- The exact value of a finite datum, in units of 2^-1074. -/
def fval (x : F64) : Int := if fsign x then -(fmag x : Int) else fmag x

/-! ## Building a datum -/

/-- A sign and the 63 bits below it. -/
def fpack (neg : Bool) (bits : Nat) : F64 := BitVec.ofNat 64 ((if neg then 2 ^ 63 else 0) + bits)

/-- The quiet NaN with zero payload, the only NaN the block stores (R10, 92 D17). -/
def qNaN : F64 := 0x7FF8000000000000#64

def fzero (neg : Bool) : F64 := fpack neg 0

def finf (neg : Bool) : F64 := fpack neg (2047 * 2 ^ 52)

/-- How many low bits of the quotient `num / den` a 53-bit significand cannot hold. -/
def roundShift (num den : Nat) : Nat :=
  if num / den < 2 ^ 53 then 0 else Nat.log2 (num / den) - 52

/-- `num / den` to the nearest integer, ties to even. -/
def divNearestEven (num den : Nat) : Nat :=
  if den < 2 * (num % den) ∨ (2 * (num % den) = den ∧ num / den % 2 = 1) then num / den + 1
  else num / den

/-- The 63 bits of `num / den` units of 2^-1074 rounded once, roundTiesToEven (R10). A significand
of `r` at shift `sh` is the pattern `sh * 2^52 + r`, in subnormal, normal and carry cases alike;
past the largest finite pattern the result is infinity. -/
def roundBits (num den : Nat) : Nat :=
  min (roundShift num den * 2 ^ 52 + divNearestEven num (den * 2 ^ roundShift num den))
    (2047 * 2 ^ 52)

/-- The exact rational `num / den` units of 2^-1074 with a sign, rounded once (R10). -/
def froundQ (neg : Bool) (num den : Nat) : F64 := fpack neg (roundBits num den)

/-- The unit count of 1.0: `2^1074` units of 2^-1074. -/
def funit : Nat := 2 ^ 1074

/-- `f64(i)` of R10. -/
def f64OfInt (i : Int) : F64 := froundQ (decide (i < 0)) (i.natAbs * funit) 1

/-- `f64(n)` of R10 for a natural number. -/
def f64OfNat (n : Nat) : F64 := froundQ false (n * funit) 1

/-! ## Operations (R10) -/

/-- `-x`: the sign bit flipped. -/
def fnegate (x : F64) : F64 := x ^^^ 0x8000000000000000#64

/-- `x + y`. An exact zero sum is -0.0 only when both operands are negative. -/
def fadd (x y : F64) : F64 :=
  if isNaN x || isNaN y then qNaN
  else if isInf x then (if isInf y && (fsign x != fsign y) then qNaN else x)
  else if isInf y then y
  else if fval x + fval y = 0 then fzero (fsign x && fsign y)
  else froundQ (decide (fval x + fval y < 0)) (fval x + fval y).natAbs 1

/-- `x - y`. -/
def fsub (x y : F64) : F64 := fadd x (fnegate y)

/-- `x * y`. -/
def fmul (x y : F64) : F64 :=
  if isNaN x || isNaN y then qNaN
  else if isInf x || isInf y then
    (if fmag x = 0 ∨ fmag y = 0 then qNaN else finf (fsign x != fsign y))
  else froundQ (fsign x != fsign y) (fmag x * fmag y) funit

/-- `x / y`. -/
def fdiv (x y : F64) : F64 :=
  if isNaN x || isNaN y then qNaN
  else if isInf x then (if isInf y then qNaN else finf (fsign x != fsign y))
  else if isInf y then fzero (fsign x != fsign y)
  else if fmag y = 0 then (if fmag x = 0 then qNaN else finf (fsign x != fsign y))
  else froundQ (fsign x != fsign y) (fmag x * funit) (fmag y)

/-- The integer square root of `n`, found bit by bit from bit `k` down, starting at `r`. -/
def isqrtFrom (n : Nat) : Nat → Nat → Nat
  | 0, r => if (r + 1) * (r + 1) ≤ n then r + 1 else r
  | k + 1, r =>
    isqrtFrom n k (if (r + 2 ^ (k + 1)) * (r + 2 ^ (k + 1)) ≤ n then r + 2 ^ (k + 1) else r)

/-- The largest `r` with `r * r ≤ n`. -/
def isqrt (n : Nat) : Nat := isqrtFrom n (Nat.log2 n / 2) 0

/-- Twice the square root of `n`, its part below the binary point replaced by one sticky bit. -/
def stickyRoot (n : Nat) : Nat := 2 * isqrt n + (if isqrt n * isqrt n = n then 0 else 1)

/-- `fsqrt(x)`. The root of `m` units of 2^-1074 is the root of `m * 2^1074` in the same units. It
lies far above the 53-bit boundary, so the sticky bit decides the rounding exactly. -/
def fsqrt (x : F64) : F64 :=
  if isNaN x then qNaN
  else if fmag x = 0 then x
  else if fsign x then qNaN
  else if isInf x then x
  else froundQ false (stickyRoot (fmag x * funit)) 2

/-! ## Exact helpers (R10, R11) -/

/-- `canon(x)` of R10. -/
def canon (x : F64) : F64 := if isNaN x then qNaN else x

/-- `rha(x)` of R11: the nearest integer, halves away from zero, sign kept. -/
def rha (x : F64) : F64 :=
  if isFinite x then froundQ (fsign x) ((2 * fmag x + funit) / (2 * funit) * funit) 1 else x

/-- `trz(x)` of R11: the integer part, sign kept. -/
def trz (x : F64) : F64 :=
  if isFinite x then froundQ (fsign x) (fmag x / funit * funit) 1 else x

/-- `clamp(r, 0, 255)` of R11 for an integral or infinite `r` (not NaN). -/
def clampByte (r : F64) : Byte :=
  if fsign r then 0
  else if isInf r then 255
  else BitVec.ofNat 8 (min (fmag r / funit) 255)

/-! ## Constants -/

/-- `PI` of R10. -/
def fPi : F64 := 0x400921FB54442D18#64
/-- 0.5 -/
def fHalf : F64 := 0x3FE0000000000000#64
/-- 1.0 -/
def fOne : F64 := 0x3FF0000000000000#64
/-- 2.0 -/
def fTwo : F64 := 0x4000000000000000#64
/-- 10.0 (93_implementation_defined.md, section 3) -/
def fTen : F64 := 0x4024000000000000#64
/-- 100.0 (41_psnr.md R130) -/
def fHundred : F64 := 0x4059000000000000#64
/-- 128.0 (93_implementation_defined.md, section 3) -/
def f128 : F64 := 0x4060000000000000#64
/-- 65025.0 = 255^2 (41_psnr.md R130) -/
def f65025 : F64 := 0x40EFC02000000000#64

end Sys2Proof.Machine
end

