-- ==== Sys2Proof/Machine/Operands.lean ====
section
/-! DEFINITION. Regions (20_memory.md R66) and the operand table of 40_command.md R103, read from
LATCH. -/

namespace Sys2Proof.Machine

/-- `Region(a, l)` of R66: the byte addresses from `base` on, `len` of them. It never wraps. -/
structure Region where
  base : Nat
  len : Nat
  deriving DecidableEq, Repr

/-- `InRange` of R66 in a memory of `size` bytes. -/
def Region.inRange (size : Nat) (r : Region) : Bool := r.len == 0 || decide (r.base + r.len ≤ size)

/-- `Disjoint` of R66: an empty region shares no byte with any. -/
def Region.disjoint (r t : Region) : Bool :=
  r.len == 0 || t.len == 0 || decide (r.base + r.len ≤ t.base) || decide (t.base + t.len ≤ r.base)

/-- `n` byte elements from address `a` (R66). -/
def byteRegion (a n : Word) : Region := { base := a.toNat, len := n.toNat }

/-- `n` binary64 elements from address `a`: `8 * n` bytes, without wrap (R66). -/
def coeffRegion (a n : Word) : Region := { base := a.toNat, len := 8 * n.toNat }

/-- The destination window `W = Region(L.dst, L.cap)` (R103). -/
def window (L : Latch) : Region := byteRegion L.dst L.cap

/-- One row of R103: the source regions, whether the command writes MEM, and the addresses that must
be 8-aligned, in the order they are checked. -/
structure Operands where
  sources : List Region
  writesMem : Bool
  aligned : List Nat
  deriving DecidableEq, Repr

def rleEncOperands (L : Latch) : Operands :=
  { sources := [byteRegion L.src L.len], writesMem := true, aligned := [] }

def rleDecOperands (L : Latch) : Operands :=
  { sources := [byteRegion L.src L.len], writesMem := true, aligned := [] }

def dctOperands (L : Latch) : Operands :=
  { sources := [byteRegion L.src L.len], writesMem := true, aligned := [L.dst.toNat] }

def idctOperands (L : Latch) : Operands :=
  { sources := [coeffRegion L.src L.len], writesMem := true, aligned := [L.src.toNat] }

def quantOperands (L : Latch) : Operands :=
  { sources := [coeffRegion L.src L.len], writesMem := true,
    aligned := [L.src.toNat, L.dst.toNat] }

def psnrOperands (L : Latch) : Operands :=
  { sources := [byteRegion L.src L.len, byteRegion L.src2 L.len], writesMem := false,
    aligned := [] }

/-- The quality factor `sint32(L.q)` (10_state.md R34). -/
def quality (L : Latch) : Int := L.q.toInt

/-- The checks every command shares, in the order of 40_command.md R104 from ALIGN to OVERLAP: the
first that fails (R108, R109, R110), or none. -/
def memoryError (o : Operands) (L : Latch) (size : Nat) : Option CmdError :=
  if o.aligned.any (fun a => a % 8 != 0) then some .align
  else if o.sources.any (fun r => !r.inRange size) then some .range
  else if o.writesMem && !(window L).inRange size then some .range
  else if o.writesMem && o.sources.any (fun r => !(window L).disjoint r) then some .overlap
  else none

end Sys2Proof.Machine
end

