-- ==== Sys2Proof/Machine/Ops.lean ====
section
/-! DEFINITION. The named operations over MEM and the registers, the two kinds of completion
(40_command.md R112, R113), issue (R100) and the two resets (70_reset_and_hazards.md). -/

namespace Sys2Proof.Machine

/-! ## MEM -/

/-- The byte written at `a`, if any was. -/
def findCell (a : Nat) : List Host.Cell → Option Byte
  | [] => none
  | c :: cs => if c.1 = a then some c.2 else findCell a cs

/-- What an unlisted address reads as: the unspecified byte of the power-on draw (R231). [log 3] -/
def unlisted (epoch a : Nat) : Byte := Config.freeByte epoch a

/-- `MEM[a]`. -/
def Memory.read (m : Memory) (a : Nat) : Byte :=
  match findCell a m.cells with
  | some b => b
  | none => unlisted m.epoch a

/-- Put a byte into cells whose addresses rise, replacing the one at its address. -/
def insertCell (a : Nat) (b : Byte) : List Host.Cell → List Host.Cell
  | [] => [(a, b)]
  | c :: cs =>
    if a < c.1 then (a, b) :: c :: cs
    else if a = c.1 then (a, b) :: cs
    else c :: insertCell a b cs

/-- `MEM[a] <- b`. MEM has no byte at or past `size` (20_memory.md R60), and none appears there.
[log 15] -/
def Memory.write (m : Memory) (a : Nat) (b : Byte) : Memory :=
  if a < m.size then { m with cells := insertCell a b m.cells } else m

/-- The canonical form of MEM: its size is a legal MEM_BYTES (00_scope.md R6), the listed addresses
rise strictly, and each is an address of MEM. An unlisted address has no value of its own, only the
free one, so no entry can repeat it. [log 3] -/
abbrev Memory.wf (m : Memory) : Prop :=
  (m.size % 8 = 0 ∧ 8 ≤ m.size ∧ m.size ≤ 2 ^ 31) ∧
    m.cells.Pairwise (fun c d => c.1 < d.1) ∧ ∀ c ∈ m.cells, c.1 < m.size

/-- `MemRead(a, n)` of 00_scope.md R12: `n` bytes as one number, little-endian. -/
def Memory.readNat (m : Memory) (a : Nat) : Nat → Nat
  | 0 => 0
  | n + 1 => (m.read a).toNat + 256 * Memory.readNat m (a + 1) n

/-- `ReadBytes(a, l)` of R12. -/
def Memory.readBytes (m : Memory) (a : Nat) : Nat → List Byte
  | 0 => []
  | n + 1 => m.read a :: Memory.readBytes m (a + 1) n

/-- Bytes stored one after another from address `a` on. -/
def Memory.writeBytes (m : Memory) (a : Nat) : List Byte → Memory
  | [] => m
  | b :: bs => (m.write a b).writeBytes (a + 1) bs

/-- The `n` low bytes of a number, least significant first: bytes `v[8i+7:8i]` of R12. -/
def leBytes : Nat → Nat → List Byte
  | 0, _ => []
  | n + 1, v => BitVec.ofNat 8 v :: leBytes n (v / 256)

/-- `MemWrite(a, n, v)` of R12. -/
def Memory.writeNat (m : Memory) (a n v : Nat) : Memory := m.writeBytes a (leBytes n v)

/-- `ReadF64(a)` of R12. -/
def Memory.readF64 (m : Memory) (a : Nat) : F64 := BitVec.ofNat 64 (m.readNat a 8)

/-- `[ReadF64(a + 8i) : i < n]`, the source of a coefficient command (40_command.md R103). -/
def Memory.readF64s (m : Memory) (a n : Nat) : List F64 :=
  (List.range n).map (fun i => m.readF64 (a + 8 * i))

/-- The 8 bytes `WriteF64` stores: little-endian `bits64(canon(x))` (R12, 20_memory.md R67). -/
def f64Bytes (x : F64) : List Byte := leBytes 8 (canon x).toNat

/-- `F64Bytes(X)` of 40_command.md R103. -/
def f64sBytes (X : List F64) : List Byte := X.flatMap f64Bytes

/-- The bytes of the window that lie inside a memory of `size` bytes, each unspecified: draw number
`d` (70_reset_and_hazards.md R232, R233). [log 4] -/
def freeBytes (d : Nat) (w : Region) (size : Nat) : List Byte :=
  (List.range (min w.len (size - w.base))).map (fun i => Config.freeByte d (w.base + i))

/-! ## Completion -/

/-- Error completion (40_command.md R112): the one operation every command error goes through. -/
def raise (e : CmdError) (s : State) : State :=
  { s with outLen := 0, status := s.status.failed e }

/-- Success completion of a command that writes MEM (R113). -/
def commitBytes (out : List Byte) (s : State) : State :=
  { s with
    mem := s.mem.writeBytes s.latch.dst.toNat out
    outLen := BitVec.ofNat 32 out.length
    status := s.status.succeeded }

/-- Success completion of PSNR (R113): `{PSNR_HI, PSNR_LO} <- bits64(canon(result))`, OUT_LEN <- 0. -/
def commitPsnr (result : F64) (s : State) : State :=
  { s with
    psnrHi := (canon result).extractLsb' 32 32
    psnrLo := (canon result).extractLsb' 0 32
    outLen := 0
    status := s.status.succeeded }

/-- The CAPACITY check and the commit that follows it (R104, R111, R113). -/
def capacityOrCommit (out : List Byte) (s : State) : State :=
  if s.latch.cap.toNat < out.length then raise .capacity s else commitBytes out s

/-- `Complete()` from the ALIGN check on, for a command that writes MEM (R104). The output is
computed from MEM as it stands, and only when every earlier check has passed. -/
def completeBytes (o : Operands) (compute : Memory → List Byte) (s : State) : State :=
  match memoryError o s.latch s.mem.size with
  | some e => raise e s
  | none => capacityOrCommit (compute s.mem) s

/-! ## Issue -/

/-- An accepted issue of the word `v` (R100). -/
def issue (v : Word) (s : State) : State :=
  { s with
    cmd := v
    latch := { cmd := v, len := s.len, src := s.srcAddr, src2 := s.src2Addr,
               dst := s.dstAddr, cap := s.dstCap, q := s.quality }
    status := s.status.issued }

/-! ## Host access errors -/

/-- A host access error sets HERR (60_exceptions.md R202). -/
def hostError (s : State) : State := { s with status := s.status.withHerr }

/-- What the transaction just taken returns to the host. [log 6] -/
def withReply (r : Option (BitVec 64)) (s : State) : State := { s with reply := r }

/-! ## Reset -/

/-- Every register of 10_state.md R23 except MEMSZ, and LATCH, at its reset value (R230, R232). -/
def resetRegs (s : State) : State :=
  { s with
    ctrl := { ie := false, heie := false }
    status := { busy := false, done := false, err := false, errcode := 0, herr := false }
    cmd := 0, len := 0, srcAddr := 0, src2Addr := 0, dstAddr := 0, dstCap := 0, quality := 0
    outLen := 0, psnrLo := 0, psnrHi := 0
    latch := Latch.zero }

/-- The latched destination window takes unspecified bytes: draw number `draws`, used up (R233).
[log 4] -/
def scrambleWindow (s : State) : State :=
  { s with
    mem := s.mem.writeBytes s.latch.dst.toNat (freeBytes s.draws (window s.latch) s.mem.size)
    draws := s.draws + 1 }

/-- `SoftReset()` of 70_reset_and_hazards.md R232. -/
def softReset (s : State) : State :=
  resetRegs (if s.status.busy then scrambleWindow s else s)

/-- Hard reset (R230, R231): the registers at their reset values and every byte of MEM unspecified,
from a new draw. The transactions still to come stay as they are. [log 10] -/
def hardReset (s : State) : State :=
  { resetRegs s with
    mem := { s.mem with epoch := s.draws, cells := [] }
    draws := s.draws + 1
    reply := none }

/-- The turns of a state after the one just taken. -/
def dropTurn (s : State) : State := { s with turns := s.turns.tail }

end Sys2Proof.Machine
end

