-- ==== Sys2Proof/Machine/Dct.lean ====
section
/-! DEFINITION. The transform engines: DCT, IDCT and IDCT.T (43_dct.md). COS_FN is an argument of every
function here; the meanings give them `Config.cosFn`. -/

namespace Sys2Proof.Machine

/-- `Arg(n, k, N)` of R160: three roundings, in this order. -/
def dctArg (n k N : Nat) : F64 :=
  fdiv (fmul (fmul fPi (fadd (f64OfNat n) fHalf)) (f64OfNat k)) (f64OfNat N)

/-- `Scale(k, N)` of R160. -/
def dctScale (k N : Nat) : F64 :=
  if k = 0 then fsqrt (fdiv fOne (f64OfNat N)) else fsqrt (fdiv fTwo (f64OfNat N))

/-- `C(n, k, N)` of R160. -/
def dctCos (cosFn : F64 → F64) (n k N : Nat) : F64 := cosFn (dctArg n k N)

/-- `f64(X[n]) - 128.0` of R161. -/
def recentre (x : Byte) : F64 := fsub (f64OfNat x.toNat) f128

/-- The inner loop of `Dct` (R161) from index `n` on, with the running sum `s`. -/
def dctSum (cosFn : F64 → F64) (k N : Nat) : Nat → F64 → List Byte → F64
  | _, s, [] => s
  | n, s, x :: xs => dctSum cosFn k N (n + 1) (fadd s (fmul (recentre x) (dctCos cosFn n k N))) xs

/-- `Dct(X)` of R161. -/
def dct (cosFn : F64 → F64) (X : List Byte) : List F64 :=
  (List.range X.length).map (fun k =>
    fmul (dctScale k X.length) (dctSum cosFn k X.length 0 (fzero false) X))

/-- The inner loop of `Recon` (R162) from index `k` on, with the running sum `s`. -/
def reconSum (cosFn : F64 → F64) (n N : Nat) : Nat → F64 → List F64 → F64
  | _, s, [] => s
  | k, s, t :: ts =>
    reconSum cosFn n N (k + 1) (fadd s (fmul (fmul (dctScale k N) t) (dctCos cosFn n k N))) ts

/-- `Recon(T)` of R162. -/
def recon (cosFn : F64 → F64) (T : List F64) : List F64 :=
  (List.range T.length).map (fun n =>
    fadd (reconSum cosFn n T.length 0 (fzero false) T) f128)

/-- `Conv(y, rnd)` of R163: NaN gives 0; then round or truncate; the clamp comes last. -/
def conv (rnd : Bool) (y : F64) : Byte :=
  if isNaN y then 0 else clampByte (if rnd then trz y else rha y)

/-- `Idct(T, rnd)` of R164 and R165. -/
def idct (cosFn : F64 → F64) (rnd : Bool) (T : List F64) : List Byte :=
  (recon cosFn T).map (conv rnd)

/-- DCT (R161). -/
def execDct (s : State) : Host.Outcome State Fault Refusal :=
  .next (completeBytes (dctOperands s.latch)
    (fun m => f64sBytes (dct Config.cosFn (m.readBytes s.latch.src.toNat s.latch.len.toNat))) s)

/-- IDCT (R164): RND = 0, rounding. -/
def execIdct (s : State) : Host.Outcome State Fault Refusal :=
  .next (completeBytes (idctOperands s.latch)
    (fun m => idct Config.cosFn false (m.readF64s s.latch.src.toNat s.latch.len.toNat)) s)

/-- IDCT.T (R165): RND = 1, truncation. -/
def execIdctT (s : State) : Host.Outcome State Fault Refusal :=
  .next (completeBytes (idctOperands s.latch)
    (fun m => idct Config.cosFn true (m.readF64s s.latch.src.toNat s.latch.len.toNat)) s)

end Sys2Proof.Machine
end

