-- ==== Sys2Proof/Machine/Psnr.lean ====
section
/-! DEFINITION. PSNR, the metric reduction unit (41_psnr.md). -/

namespace Sys2Proof.Machine

/-- `(a - b)^2`, an exact integer (R130). -/
def squaredDiff (a b : Byte) : Nat := ((a.toNat : Int) - b.toNat).natAbs ^ 2

/-- `S`, the exact sum of the squared differences (R130). -/
def sumSquares : List Byte → List Byte → Nat
  | a :: as, b :: bs => squaredDiff a b + sumSquares as bs
  | _, _ => 0

/-- The result for a sum `S` over `n` samples (R130, R134). -/
def psnrOfSum (log10 : F64 → F64) (S n : Nat) : F64 :=
  if n = 0 ∨ S = 0 then fHundred
  else fmul fTen (log10 (fdiv f65025 (fdiv (f64OfNat S) (f64OfNat n))))

/-- `Psnr(A, B)` of R130. -/
def psnr (log10 : F64 → F64) (A B : List Byte) : F64 :=
  psnrOfSum log10 (sumSquares A B) A.length

/-- PSNR (R130): both sources are L.len bytes; MEM is not written. -/
def execPsnr (s : State) : Host.Outcome State Fault Refusal :=
  match memoryError (psnrOperands s.latch) s.latch s.mem.size with
  | some e => .next (raise e s)
  | none =>
    .next (commitPsnr (psnr Config.log10Fn
      (s.mem.readBytes s.latch.src.toNat s.latch.len.toNat)
      (s.mem.readBytes s.latch.src2.toNat s.latch.len.toNat)) s)

end Sys2Proof.Machine
end

