-- ==== Sys2Proof/Machine/Quant.lean ====
section
/-! DEFINITION. QUANT, the coefficient quantizer (44_quantizer.md). -/

namespace Sys2Proof.Machine

/-- One coefficient of `Quant` (R180): divide, round half away from zero, multiply. -/
def quantOne (q : Int) (x : F64) : F64 := fmul (rha (fdiv x (f64OfInt q))) (f64OfInt q)

/-- `Quant(X, q)` of R180. -/
def quant (q : Int) (X : List F64) : List F64 := X.map (quantOne q)

/-- QUANT (R180): a quality factor `<= 0` is INVALID_PARAM before every memory check
(40_command.md R106). -/
def execQuant (s : State) : Host.Outcome State Fault Refusal :=
  if quality s.latch ≤ 0 then .next (raise .invalidParam s)
  else .next (completeBytes (quantOperands s.latch)
    (fun m => f64sBytes (quant (quality s.latch)
      (m.readF64s s.latch.src.toNat s.latch.len.toNat))) s)

end Sys2Proof.Machine
end

