-- ==== Sys2Proof/Machine/Rle.lean ====
section
/-! DEFINITION. RLE.ENC and RLE.DEC (42_rle.md). -/

namespace Sys2Proof.Machine

/-- The loop of `RleEnc` (R140) with a pending run of `run` copies of `val`. -/
def rleEncFrom (val : Byte) (run : Nat) : List Byte → List Byte
  | [] => [BitVec.ofNat 8 run, val]
  | x :: xs =>
    if x = val ∧ run < 255 then rleEncFrom val (run + 1) xs
    else BitVec.ofNat 8 run :: val :: rleEncFrom x 1 xs

/-- `RleEnc(X)` of R140. -/
def rleEnc : List Byte → List Byte
  | [] => []
  | x :: xs => rleEncFrom x 1 xs

/-- `RleDec(Y)` of R143: each (count, value) pair appends `count` copies of `value`; a count of 0
appends nothing (R144). A stream of odd length never reaches it (40_command.md R107). -/
def rleDec : List Byte → List Byte
  | c :: v :: ys => List.replicate c.toNat v ++ rleDec ys
  | _ => []

/-- RLE.ENC (R140). -/
def execRleEnc (s : State) : Host.Outcome State Fault Refusal :=
  .next (completeBytes (rleEncOperands s.latch)
    (fun m => rleEnc (m.readBytes s.latch.src.toNat s.latch.len.toNat)) s)

/-- RLE.DEC (R143): an odd LEN is MALFORMED_STREAM before every memory check (40_command.md R107). -/
def execRleDec (s : State) : Host.Outcome State Fault Refusal :=
  if s.latch.len.toNat % 2 = 1 then .next (raise .malformedStream s)
  else .next (completeBytes (rleDecOperands s.latch)
    (fun m => rleDec (m.readBytes s.latch.src.toNat s.latch.len.toNat)) s)

end Sys2Proof.Machine
end

