-- ==== Sys2Proof/Machine/Dispatch.lean ====
section
/-! DEFINITION. The completion step of each command (40_command.md R104), one arm per constructor. -/

namespace Sys2Proof.Machine

def exec (i : Instr) (s : State) : Host.Outcome State Fault Refusal :=
  match i with
  | .rleEnc => Sys2Proof.Machine.execRleEnc s
  | .rleDec => Sys2Proof.Machine.execRleDec s
  | .dct => Sys2Proof.Machine.execDct s
  | .idct => Sys2Proof.Machine.execIdct s
  | .idctT => Sys2Proof.Machine.execIdctT s
  | .quant => Sys2Proof.Machine.execQuant s
  | .psnr => Sys2Proof.Machine.execPsnr s

end Sys2Proof.Machine
end

