-- ==== Sys2Proof/Machine/Engine.lean ====
section
/-! DEFINITION. The engine's turn: `Complete()` of the latched word (40_command.md R102, R104). -/

namespace Sys2Proof.Machine

/-- The word the engine runs: the `cmd` field of LATCH, as the four bytes the decoder takes. -/
def latchedBytes (s : State) : List Byte := wordBytes s.latch.cmd

/-- The engine's turn. It is enabled exactly when BUSY = 1 (R102); then the latched word's command
completes, and a word that decodes to ILLEGAL completes with ILLEGAL_CMD (R105). With BUSY = 0 the
block is idle (60_exceptions.md R213). [log 13] -/
def engineTurn (s : State) : Host.Outcome State Fault Refusal :=
  if s.status.busy then
    match decodeBytes (latchedBytes s) with
    | .ok i => exec i s
    | .error _ => .next (raise .illegalCmd s)
  else .next s

/-- The turns that make the engine move next. An empty list does already: with no host transaction
left, the engine moves whenever it is enabled. [log 5] -/
def engineFirst : List Turn → List Turn
  | [] => []
  | t :: ts => .engine :: t :: ts

end Sys2Proof.Machine
end

