-- ==== Sys2Proof/Machine/HostPort.lean ====
section
/-! DEFINITION. What the host can do: the register port (10_state.md R23-R36) and the memory port
(20_memory.md R63-R65). -/

namespace Sys2Proof.Machine

/-- The number of bytes of an access. -/
def Width.bytes : Width → Nat
  | .w1 => 1
  | .w2 => 2
  | .w4 => 4
  | .w8 => 8

/-- The offset of a register (R23). -/
def RegName.offset : RegName → BitVec 12
  | .ctrl => 0x000
  | .status => 0x004
  | .cmd => 0x008
  | .len => 0x00C
  | .srcAddr => 0x010
  | .src2Addr => 0x014
  | .dstAddr => 0x018
  | .dstCap => 0x01C
  | .quality => 0x020
  | .outLen => 0x024
  | .psnrLo => 0x028
  | .psnrHi => 0x02C
  | .memsz => 0x030

/-- The register at an offset, if the offset is aligned and mapped (R23). -/
def regAt (off : BitVec 12) : Option RegName :=
  match off.toNat with
  | 0x000 => some .ctrl
  | 0x004 => some .status
  | 0x008 => some .cmd
  | 0x00C => some .len
  | 0x010 => some .srcAddr
  | 0x014 => some .src2Addr
  | 0x018 => some .dstAddr
  | 0x01C => some .dstCap
  | 0x020 => some .quality
  | 0x024 => some .outLen
  | 0x028 => some .psnrLo
  | 0x02C => some .psnrHi
  | 0x030 => some .memsz
  | _ => none

/-- The register an access reaches: none when its width is not 4, or its offset is misaligned or past
0x030 (R24, R25). -/
def accessedReg (off : BitVec 12) : Width → Option RegName
  | .w4 => regAt off
  | _ => none

/-- The read value of a register (R26, R28, R30-R36). -/
def readReg (r : RegName) (s : State) : Word :=
  match r with
  | .ctrl => s.ctrl.word
  | .status => s.status.word
  | .cmd => s.cmd
  | .len => s.len
  | .srcAddr => s.srcAddr
  | .src2Addr => s.src2Addr
  | .dstAddr => s.dstAddr
  | .dstCap => s.dstCap
  | .quality => s.quality
  | .outLen => s.outLen
  | .psnrLo => s.psnrLo
  | .psnrHi => s.psnrHi
  | .memsz => BitVec.ofNat 32 s.mem.size

/-- A write to CTRL (R27): bit 2 is the soft reset, and then bits 1:0 are discarded. -/
def writeCtrl (v : Word) (s : State) : State :=
  if v.getLsbD 2 then softReset s else { s with ctrl := Ctrl.ofWord v }

/-- A write to CMD: an issue when BUSY = 0 (40_command.md R100), ignored with HERR when BUSY = 1
(R101). -/
def writeCmd (v : Word) (s : State) : State :=
  if s.status.busy then hostError s else issue v s

/-- The write effect of a register (R25, R27, R29, R30-R34); the read-only ones set HERR. -/
def writeReg (r : RegName) (v : Word) (s : State) : State :=
  match r with
  | .ctrl => writeCtrl v s
  | .status => { s with status := s.status.clear v }
  | .cmd => writeCmd v s
  | .len => { s with len := v }
  | .srcAddr => { s with srcAddr := v }
  | .src2Addr => { s with src2Addr := v }
  | .dstAddr => { s with dstAddr := v }
  | .dstCap => { s with dstCap := v }
  | .quality => { s with quality := v }
  | .outLen => hostError s
  | .psnrLo => hostError s
  | .psnrHi => hostError s
  | .memsz => hostError s

/-- `RegRead(off, w)` of R24. -/
def regRead (off : BitVec 12) (w : Width) (s : State) : State :=
  match accessedReg off w with
  | none => withReply (some 0) (hostError s)
  | some r => withReply (some ((readReg r s).setWidth 64)) s

/-- `RegWrite(off, w, v)` of R25. -/
def regWrite (off : BitVec 12) (w : Width) (v : BitVec 64) (s : State) : State :=
  match accessedReg off w with
  | none => withReply none (hostError s)
  | some r => withReply none (writeReg r (v.setWidth 32) s)

/-- Whether the memory port refuses an access of `n` bytes at `a`: BUSY = 1, or past MEM_BYTES, the
sum exact (20_memory.md R63-R65). -/
def memRefused (a : BitVec 32) (w : Width) (s : State) : Bool :=
  s.status.busy || decide (s.mem.size < a.toNat + w.bytes)

/-- `HostMemRead(addr, n)` of R63. -/
def hostMemRead (a : BitVec 32) (w : Width) (s : State) : State :=
  if memRefused a w s then withReply (some 0) (hostError s)
  else withReply (some (BitVec.ofNat 64 (s.mem.readNat a.toNat w.bytes))) s

/-- `HostMemWrite(addr, n, v)` of R64. -/
def hostMemWrite (a : BitVec 32) (w : Width) (v : BitVec 64) (s : State) : State :=
  if memRefused a w s then withReply none (hostError s)
  else withReply none { s with mem := s.mem.writeNat a.toNat w.bytes v.toNat }

/-- One host transaction. -/
def hostStep (t : Transaction) (s : State) : State :=
  match t with
  | .regRead off w => regRead off w s
  | .regWrite off w v => regWrite off w v s
  | .memRead a w => hostMemRead a w s
  | .memWrite a w v => hostMemWrite a w v s

end Sys2Proof.Machine
end

