-- ==== Sys2Proof/Machine/Step.lean ====
section
/-! DEFINITION. One step of the single total order (20_memory.md R72). -/

namespace Sys2Proof.Machine

/-- One step: the next turn's agent moves. With no turn left the engine completes a running command,
so every command completes after finitely many host transactions (40_command.md R102); an idle block
stays as it is. [log 5] -/
def step (s : State) : Host.Outcome State Fault Refusal :=
  match s.turns with
  | [] => engineTurn s
  | .engine :: _ => engineTurn (dropTurn s)
  | .host t :: _ => .next (hostStep t (dropTurn s))
  | .hardReset :: _ => .next (hardReset (dropTurn s))

/-- The state in which the engine runs the given word next: the word issued (40_command.md R100),
its operands latched from the parameter registers, and the engine's turn first. [log 7] -/
def State.withFetchWord (s : State) (nbits w : Nat) : State :=
  { issue (BitVec.ofNat 32 (w % 2 ^ nbits)) s with turns := engineFirst s.turns }

end Sys2Proof.Machine
end

