-- ==== Sys2Proof/Machine/HostProgram.lean ====
section
/-! DEFINITION. The host-program notation (30_encoding.md R85) and the pseudo-instructions (R86), as
the transactions they stand for. Host control flow is the host's own and is no transaction: `wait`
is the STATUS read it repeats. [log 16] -/

namespace Sys2Proof.Machine

/-- `wr NAME, v` (R85). -/
def wr (r : RegName) (v : Word) : Transaction := .regWrite r.offset .w4 (v.setWidth 64)

/-- `rd NAME` (R85). -/
def rd (r : RegName) : Transaction := .regRead r.offset .w4

/-- `st.N addr, v` (R85). -/
def st (n : Width) (addr : BitVec 32) (v : BitVec 64) : Transaction := .memWrite addr n v

/-- `ld.N addr` (R85). -/
def ld (n : Width) (addr : BitVec 32) : Transaction := .memRead addr n

/-- `cmd MNEMONIC` (R85). -/
def cmdLine (i : Instr) : Transaction := wr .cmd (encode i)

/-- The shared expansion of RLE.ENC, RLE.DEC, DCT, IDCT and IDCT.T (R86). -/
def bufferCmd (i : Instr) (dst cap src len : Word) : List Transaction :=
  [wr .dstAddr dst, wr .dstCap cap, wr .srcAddr src, wr .len len, cmdLine i]

/-- `QUANT dst, cap, src, len, q` (R86). -/
def quantCmd (dst cap src len q : Word) : List Transaction :=
  [wr .dstAddr dst, wr .dstCap cap, wr .srcAddr src, wr .len len, wr .quality q, cmdLine .quant]

/-- `PSNR a, b, len` (R86). -/
def psnrCmd (a b len : Word) : List Transaction :=
  [wr .srcAddr a, wr .src2Addr b, wr .len len, cmdLine .psnr]

/-- One poll of `wait`: `rd STATUS` (R86). [log 16] -/
def waitPoll : Transaction := rd .status

/-- The host's test after a poll: whether BUSY is 0 in the value read (R86). -/
def waitDone (reply : BitVec 64) : Bool := !reply.getLsbD 0

/-- `clr`: clear DONE, ERR, ERRCODE and HERR (R86). -/
def clr : Transaction := wr .status 0x00000106

end Sys2Proof.Machine
end

