-- ==== Sys2Proof/Safety.lean ====
section
/-! DEFINITION. The terms the statements about the machine are made of: the invariant every step keeps,
what a completion leaves alone, and what a command that succeeds leaves behind. -/

namespace Sys2Proof.Machine

/-! ## The invariant -/

/-- ERRCODE is one of 0 to 7 (60_exceptions.md R200; 93_implementation_defined.md I15), ERR is 1
exactly when it is not 0, and a running command shows neither DONE nor ERR (40_command.md R100). -/
def StatusLegal (t : Status) : Prop :=
  t.errcode.toNat ≤ 7 ∧ (t.err = true ↔ t.errcode ≠ 0) ∧
    (t.busy = true → t.done = false ∧ t.err = false)

/-- While a command runs, CMD holds its word: a CMD write is then ignored (40_command.md R101). -/
def RunningWordShown (s : State) : Prop := s.status.busy = true → s.latch.cmd = s.cmd

/-- The power-on draw is a used one, so no later draw repeats it. [log 14] -/
def DrawsFresh (s : State) : Prop := s.mem.epoch < s.draws

/-- What every step keeps. -/
def Inv (s : State) : Prop := s.mem.wf ∧ StatusLegal s.status ∧ RunningWordShown s ∧ DrawsFresh s

/-! ## Regions as sets of addresses -/

/-- `a` is in `Region(base, len)` (20_memory.md R66). -/
def InRegion (base len a : Nat) : Prop := base ≤ a ∧ a < base + len

/-- `InRange` (R66). -/
def RegionIn (size base len : Nat) : Prop := len = 0 ∨ base + len ≤ size

/-- `Disjoint` (R66): no address is in both. -/
def RegionsApart (b₁ l₁ b₂ l₂ : Nat) : Prop := ∀ a, ¬ (InRegion b₁ l₁ a ∧ InRegion b₂ l₂ a)

/-- Every check of the destination window against one source region of `l` bytes passes. -/
def WindowReady (s : State) (l : Nat) : Prop :=
  RegionIn s.mem.size s.latch.src.toNat l ∧
    RegionIn s.mem.size s.latch.dst.toNat s.latch.cap.toNat ∧
    RegionsApart s.latch.dst.toNat s.latch.cap.toNat s.latch.src.toNat l

/-- How many bytes one element of the first source region has (40_command.md R103). -/
def elemBytes : Instr → Nat
  | .idct => 8
  | .idctT => 8
  | .quant => 8
  | _ => 1

/-- The length in bytes of the first source region (R103). -/
def sourceLen (i : Instr) (s : State) : Nat := elemBytes i * s.latch.len.toNat

/-- Every check of the command before RANGE passes (40_command.md R104). -/
def ParametersReady (i : Instr) (s : State) : Prop :=
  match i with
  | .rleEnc => True
  | .rleDec => s.latch.len.toNat % 2 = 0
  | .dct => s.latch.dst.toNat % 8 = 0
  | .idct => s.latch.src.toNat % 8 = 0
  | .idctT => s.latch.src.toNat % 8 = 0
  | .quant => 0 < s.latch.q.toInt ∧ s.latch.src.toNat % 8 = 0 ∧ s.latch.dst.toNat % 8 = 0
  | .psnr => True

/-- The bytes of L.src, `L.len` of them. -/
def sourceBytes (s : State) : List Byte := s.mem.readBytes s.latch.src.toNat s.latch.len.toNat

/-- The bytes of L.src2, `L.len` of them. -/
def source2Bytes (s : State) : List Byte := s.mem.readBytes s.latch.src2.toNat s.latch.len.toNat

/-- The coefficients at L.src, `L.len` of them. -/
def sourceCoeffs (s : State) : List F64 := s.mem.readF64s s.latch.src.toNat s.latch.len.toNat

/-- How many bytes the command writes when it succeeds (40_command.md R103, R111). -/
def outputLen (i : Instr) (s : State) : Nat :=
  match i with
  | .rleEnc => (rleEnc (sourceBytes s)).length
  | .rleDec => (rleDec (sourceBytes s)).length
  | .dct => 8 * s.latch.len.toNat
  | .idct => s.latch.len.toNat
  | .idctT => s.latch.len.toNat
  | .quant => 8 * s.latch.len.toNat
  | .psnr => 0

/-! ## Completion -/

/-- What no completion changes (40_command.md R114), with the model's own fields. -/
def CompletionFrame (s t : State) : Prop :=
  t.ctrl = s.ctrl ∧ t.status.herr = s.status.herr ∧ t.cmd = s.cmd ∧ t.len = s.len ∧
    t.srcAddr = s.srcAddr ∧ t.src2Addr = s.src2Addr ∧ t.dstAddr = s.dstAddr ∧
    t.dstCap = s.dstCap ∧ t.quality = s.quality ∧ t.latch = s.latch ∧
    t.mem.size = s.mem.size ∧ t.mem.epoch = s.mem.epoch ∧ t.draws = s.draws ∧
    t.turns = s.turns ∧ t.reply = s.reply

/-- STATUS after a success completion (R113). -/
def StatusSuccess (s t : State) : Prop :=
  t.status.busy = false ∧ t.status.done = true ∧ t.status.err = false ∧ t.status.errcode = 0 ∧
    t.status.herr = s.status.herr

/-- The command succeeds, stores `out` from L.dst on, and changes no other byte (R113, R114). -/
def WritesAndSucceeds (i : Instr) (s : State) (out : List Byte) : Prop :=
  ∃ t, exec i s = .next t ∧
    (∀ k (h : k < out.length), t.mem.read (s.latch.dst.toNat + k) = out[k]) ∧
    (∀ a, ¬ InRegion s.latch.dst.toNat out.length a → t.mem.read a = s.mem.read a) ∧
    t.outLen.toNat = out.length ∧ t.psnrLo = s.psnrLo ∧ t.psnrHi = s.psnrHi ∧
    StatusSuccess s t ∧ CompletionFrame s t

/-- The command succeeds, stores the coefficients `T` from L.dst on, each through `canon`, and
changes no other byte (R103, R113, R114). -/
def StoresCoefficients (i : Instr) (s : State) (T : List F64) : Prop :=
  ∃ t, exec i s = .next t ∧
    (∀ k (h : k < T.length), t.mem.readF64 (s.latch.dst.toNat + 8 * k) = canon T[k]) ∧
    (∀ a, ¬ InRegion s.latch.dst.toNat (8 * T.length) a → t.mem.read a = s.mem.read a) ∧
    t.outLen.toNat = 8 * T.length ∧ t.psnrLo = s.psnrLo ∧ t.psnrHi = s.psnrHi ∧
    StatusSuccess s t ∧ CompletionFrame s t

/-- `t` is the error completion of `s` with code `c`: exactly the writes of 40_command.md R112. -/
def EndsInError (c : BitVec 4) (s t : State) : Prop :=
  t = { s with
        outLen := 0
        status := { busy := false, done := true, err := true, errcode := c,
                    herr := s.status.herr } }

/-- The command completes with error code `c`. -/
def CompletesInError (i : Instr) (s : State) (c : BitVec 4) : Prop :=
  ∃ t, exec i s = .next t ∧ EndsInError c s t

/-! ## Turns -/

/-- The state whose next turn is the host's transaction `t`. -/
def withHost (t : Transaction) (s : State) : State := { s with turns := .host t :: s.turns }

/-- The step whose turn is the host's transaction `t` leads from `s` to `u`. -/
def HostDoes (t : Transaction) (s u : State) : Prop := step (withHost t s) = .next u

/-- HERR set, and the transaction answered with `r`; nothing else changed. -/
def RefusedAccess (r : Option (BitVec 64)) (s u : State) : Prop :=
  u = { s with status := { s.status with herr := true }, reply := r }

/-- The next turn is the engine's, or no turn is left. -/
def EngineMovesNext (s : State) : Prop := s.turns = [] ∨ ∃ ts, s.turns = .engine :: ts

/-- `k` steps, stopping at the first that does not answer a next state. -/
def runFor : Nat → State → Host.Outcome State Fault Refusal
  | 0, s => .next s
  | k + 1, s =>
    match step s with
    | .next t => runFor k t
    | .fault r => .fault r
    | .refused r => .refused r

/-- The next turn is a host write of `v` to the register at `off`, 4 bytes wide. -/
def NextWrites (off : BitVec 12) (v : BitVec 64) (s : State) : Prop :=
  ∃ ts, s.turns = .host (.regWrite off .w4 v) :: ts

/-- The next turn resets the block: the reset input, or a CTRL write with bit 2 = 1
(70_reset_and_hazards.md R230, R232). -/
def NextResets (s : State) : Prop :=
  (∃ ts, s.turns = .hardReset :: ts) ∨ ∃ v, NextWrites 0x000 v s ∧ v.getLsbD 2 = true

/-! ## Rounding (00_scope.md R10) -/

/-- How far the magnitude of `y` lies from `num / den` units of 2^-1074, times `den`. -/
def roundingError (num den : Nat) (y : F64) : Nat := ((fmag y * den : Int) - num).natAbs

/-- `r` is `num / den` units of 2^-1074 with sign `neg`, rounded once with roundTiesToEven: infinity
from half a unit past the largest finite datum on; below that the nearest finite datum, and of two
equally near the one with an even significand. -/
def NearestEven (neg : Bool) (num den : Nat) (r : F64) : Prop :=
  fsign r = neg ∧
    ((2 ^ 54 - 1) * 2 ^ 2044 * den ≤ num → isInf r = true) ∧
    (num < (2 ^ 54 - 1) * 2 ^ 2044 * den → isFinite r = true ∧
      ∀ y, isFinite y = true →
        roundingError num den r ≤ roundingError num den y ∧
        (roundingError num den r = roundingError num den y → fmag y ≠ fmag r → ffrac r % 2 = 0))

end Sys2Proof.Machine
end

