-- ==== Sys2Proof/Certificates/Slice0/Obligations.lean ====
section
/-! DEFINITION. The statements about the machine, for the provers. Each docstring names the rule of
spec/ it formalises, or says that it rests on a choice of the model. -/

open Sys2Proof Sys2Proof.Machine

/-! ## Words -/

/-- Decode and encode agree in both directions: a word decodes to a command exactly when it is that
command's word (30_encoding.md R81, R83). -/
def Obligations.DecodeEncodeAgree : Prop :=
  ∀ (w : Word) (i : Instr), decode w = .ok i ↔ w = encode i

/-- `Decode` of R81, field by field, and the seven words of its table. -/
def Obligations.DecodeFollowsOpcodeMap : Prop :=
  (decode 0x00000001 = .ok .rleEnc ∧ decode 0x00000002 = .ok .rleDec ∧
    decode 0x00000003 = .ok .dct ∧ decode 0x00000004 = .ok .idct ∧
    decode 0x00000014 = .ok .idctT ∧ decode 0x00000005 = .ok .quant ∧
    decode 0x00000006 = .ok .psnr) ∧
  ∀ w : Word,
    (w.extractLsb' 5 27 ≠ 0 → ∃ e, decode w = .error e) ∧
    (w.getLsbD 4 = true → w.extractLsb' 0 4 ≠ 4 → ∃ e, decode w = .error e) ∧
    (w.extractLsb' 5 27 = 0 → (w.getLsbD 4 = true → w.extractLsb' 0 4 = 4) →
      (w.extractLsb' 0 4 = 1 → decode w = .ok .rleEnc) ∧
      (w.extractLsb' 0 4 = 2 → decode w = .ok .rleDec) ∧
      (w.extractLsb' 0 4 = 3 → decode w = .ok .dct) ∧
      (w.extractLsb' 0 4 = 4 → w.getLsbD 4 = false → decode w = .ok .idct) ∧
      (w.extractLsb' 0 4 = 4 → w.getLsbD 4 = true → decode w = .ok .idctT) ∧
      (w.extractLsb' 0 4 = 5 → decode w = .ok .quant) ∧
      (w.extractLsb' 0 4 = 6 → decode w = .ok .psnr) ∧
      (w.extractLsb' 0 4 = 0 ∨ 7 ≤ (w.extractLsb' 0 4).toNat → ∃ e, decode w = .error e))

/-- A few words decode to the commands they stand for (95_test_vectors.md V-DEC-2 to V-DEC-13), given
as the four bytes of the CMD write. The vectors give words; that the bytes come least significant first
is the model's deduction from R62 (log 17). -/
def Obligations.SampleWordsDecode : Prop :=
  decodeBytes [0x01, 0x00, 0x00, 0x00] = .ok .rleEnc ∧
  decodeBytes [0x14, 0x00, 0x00, 0x00] = .ok .idctT ∧
  decodeBytes [0x06, 0x00, 0x00, 0x00] = .ok .psnr ∧
  decodeBytes [0x15, 0x00, 0x00, 0x00] = .error .roundingBit ∧
  decodeBytes [0x24, 0x00, 0x00, 0x00] = .error .reservedBits ∧
  decodeBytes [0x07, 0x00, 0x00, 0x00] = .error .undefinedOp

/-! ## Steps -/

/-- The engine's turn while BUSY = 1 runs the decoded latched word; the step adds only that the turn
is used up. -/
def Obligations.StepRunsDecodedCommand : Prop :=
  ∀ (s : State) (i : Instr), s.status.busy = true → EngineMovesNext s →
    decodeBytes (latchedBytes s) = .ok i → i.wellFormed = true →
    step s = exec i (dropTurn s)

/-- A state prepared with a command word runs that command next, with the operands the parameter
registers hold. How a word gets there is the model's choice (log 7). -/
def Obligations.IssuedWordRunsNext : Prop :=
  ∀ (s : State) (i : Instr),
    step (s.withFetchWord 32 (encode i).toNat) = exec i (issue (encode i) s)

/-- No behaviour of the hardware is stuck: every step answers a next state
(93_implementation_defined.md, section 2). -/
def Obligations.NoStepStops : Prop := ∀ s : State, ∃ t, step s = .next t

/-- The engine step is enabled only while BUSY = 1 (R102). That a turn of the engine with BUSY = 0 is a
step at all, and changes nothing but the list of turns, is the model's choice (log 13, and log 5 for
the turns). -/
def Obligations.EngineIdleWhileNotBusy : Prop :=
  ∀ s : State, s.status.busy = false → EngineMovesNext s → step s = .next (dropTurn s)

/-- Weak fairness: BUSY returns to 0 after finitely many steps, at most one more than the turns still
to come. That the waiting turns are a finite list is the model's form of R102 (log 5). -/
def Obligations.RunningCommandEnds : Prop :=
  ∀ s : State, s.status.busy = true →
    ∃ (k : Nat) (t : State), k ≤ s.turns.length + 1 ∧
      runFor k s = .next t ∧ t.status.busy = false

/-- Completion is the only way BUSY returns to 0, apart from reset (R102). Whose turn it is stands in
the model's list of turns (log 5). -/
def Obligations.BusyFallsOnlyAtCompletionOrReset : Prop :=
  ∀ s t : State, step s = .next t → s.status.busy = true → t.status.busy = false →
    (EngineMovesNext s ∧ t.status.done = true) ∨ NextResets s

/-- While a command runs and goes on running, MEM, LATCH, CMD and the result registers hold what they
held: no host transaction reaches them (R37, R65, R77, R236). -/
def Obligations.RunningCommandUndisturbed : Prop :=
  ∀ s t : State, step s = .next t → s.status.busy = true → t.status.busy = true →
    t.mem = s.mem ∧ t.latch = s.latch ∧ t.cmd = s.cmd ∧ t.outLen = s.outLen ∧
      t.psnrLo = s.psnrLo ∧ t.psnrHi = s.psnrHi

/-- DONE rises only when the engine ends a running command, and BUSY rises only at an accepted issue,
which latches the written word (R241). -/
def Obligations.DoneNeedsAnIssuedCommand : Prop :=
  ∀ s t : State, step s = .next t →
    (s.status.done = false → t.status.done = true → s.status.busy = true ∧ EngineMovesNext s) ∧
    (s.status.busy = false → t.status.busy = true →
      ∃ v, NextWrites 0x008 v s ∧ t.latch.cmd = v.setWidth 32 ∧ t.status.done = false)

/-- HERR stays 1 until a STATUS write with bit 8 = 1 or a reset (R202). -/
def Obligations.HerrStaysUntilCleared : Prop :=
  ∀ s t : State, step s = .next t → s.status.herr = true → t.status.herr = false →
    (∃ v, NextWrites 0x004 v s ∧ v.getLsbD 8 = true) ∨ NextResets s

/-- With CTRL.IE = 1 a completion asserts IRQ (R38, R203). -/
def Obligations.CompletionAssertsIrq : Prop :=
  ∀ s t : State, s.status.busy = true → EngineMovesNext s → step s = .next t →
    s.ctrl.ie = true → irq t = true

/-! ## Commands that succeed -/

/-- RLE.ENC (42_rle.md R140): the encoded source is stored, OUT_LEN counts it. -/
def Obligations.RleEncCompletes : Prop :=
  ∀ s : State, WindowReady s s.latch.len.toNat →
    (rleEnc (sourceBytes s)).length ≤ s.latch.cap.toNat →
    WritesAndSucceeds .rleEnc s (rleEnc (sourceBytes s))

/-- RLE.DEC (42_rle.md R143): an even stream is decoded and stored. -/
def Obligations.RleDecCompletes : Prop :=
  ∀ s : State, s.latch.len.toNat % 2 = 0 → WindowReady s s.latch.len.toNat →
    (rleDec (sourceBytes s)).length ≤ s.latch.cap.toNat →
    WritesAndSucceeds .rleDec s (rleDec (sourceBytes s))

/-- DCT (43_dct.md R161): one coefficient per sample. -/
def Obligations.DctCompletes : Prop :=
  ∀ s : State, s.latch.dst.toNat % 8 = 0 → WindowReady s s.latch.len.toNat →
    8 * s.latch.len.toNat ≤ s.latch.cap.toNat →
    (dct Config.cosFn (sourceBytes s)).length = s.latch.len.toNat ∧
      StoresCoefficients .dct s (dct Config.cosFn (sourceBytes s))

/-- IDCT (43_dct.md R164): one rounded sample per coefficient. -/
def Obligations.IdctCompletes : Prop :=
  ∀ s : State, s.latch.src.toNat % 8 = 0 → WindowReady s (8 * s.latch.len.toNat) →
    s.latch.len.toNat ≤ s.latch.cap.toNat →
    (idct Config.cosFn false (sourceCoeffs s)).length = s.latch.len.toNat ∧
      WritesAndSucceeds .idct s (idct Config.cosFn false (sourceCoeffs s))

/-- IDCT.T (43_dct.md R165): one truncated sample per coefficient. -/
def Obligations.IdctTCompletes : Prop :=
  ∀ s : State, s.latch.src.toNat % 8 = 0 → WindowReady s (8 * s.latch.len.toNat) →
    s.latch.len.toNat ≤ s.latch.cap.toNat →
    (idct Config.cosFn true (sourceCoeffs s)).length = s.latch.len.toNat ∧
      WritesAndSucceeds .idctT s (idct Config.cosFn true (sourceCoeffs s))

/-- QUANT (44_quantizer.md R180): one quantized coefficient per coefficient. -/
def Obligations.QuantCompletes : Prop :=
  ∀ s : State, 0 < s.latch.q.toInt → s.latch.src.toNat % 8 = 0 → s.latch.dst.toNat % 8 = 0 →
    WindowReady s (8 * s.latch.len.toNat) → 8 * s.latch.len.toNat ≤ s.latch.cap.toNat →
    (quant s.latch.q.toInt (sourceCoeffs s)).length = s.latch.len.toNat ∧
      StoresCoefficients .quant s (quant s.latch.q.toInt (sourceCoeffs s))

/-- PSNR (41_psnr.md R130): the result goes to PSNR_HI:PSNR_LO, OUT_LEN is 0, MEM is not written. -/
def Obligations.PsnrCompletes : Prop :=
  ∀ s : State, RegionIn s.mem.size s.latch.src.toNat s.latch.len.toNat →
    RegionIn s.mem.size s.latch.src2.toNat s.latch.len.toNat →
    ∃ t, exec .psnr s = .next t ∧
      t.psnrHi ++ t.psnrLo = canon (psnr Config.log10Fn (sourceBytes s) (source2Bytes s)) ∧
      t.outLen = 0 ∧ t.mem = s.mem ∧ StatusSuccess s t ∧ CompletionFrame s t

/-! ## Commands that end in error -/

/-- An error completion writes OUT_LEN and STATUS as R112 says and nothing else, and its code is one
of 1 to 7. -/
def Obligations.ErrorCompletionIsPrecise : Prop :=
  ∀ s t : State, s.status.busy = true → EngineMovesNext s → step s = .next t →
    t.status.errcode ≠ 0 →
    EndsInError t.status.errcode (dropTurn s) t ∧ t.status.errcode.toNat ≤ 7

/-- A word that decodes to no command ends with ILLEGAL_CMD, whatever else holds (R105). -/
def Obligations.IllegalWordEndsInError : Prop :=
  ∀ s : State, s.status.busy = true → EngineMovesNext s →
    (∀ i, decode s.latch.cmd ≠ .ok i) →
    ∃ t, step s = .next t ∧ EndsInError 1 (dropTurn s) t

/-- QUANT with a quality factor <= 0 ends with INVALID_PARAM before any memory check and whatever
L.len is; nothing else does, and to every other command QUALITY does not matter (R106). -/
def Obligations.QuantRejectsQuality : Prop :=
  (∀ s : State, s.latch.q.toInt ≤ 0 → CompletesInError .quant s 2) ∧
  (∀ (i : Instr) (s t : State), exec i s = .next t → t.status.errcode = 2 →
    i = .quant ∧ s.latch.q.toInt ≤ 0) ∧
  ∀ (i : Instr) (s t : State) (x : Word), i ≠ .quant → exec i s = .next t →
    exec i { s with latch := { s.latch with q := x } } =
      .next { t with latch := { t.latch with q := x } }

/-- RLE.DEC with an odd LEN ends with MALFORMED_STREAM; nothing else does, whatever the stream holds
(R107). -/
def Obligations.RleDecRejectsOddLength : Prop :=
  (∀ s : State, s.latch.len.toNat % 2 = 1 → CompletesInError .rleDec s 3) ∧
  ∀ (i : Instr) (s t : State), exec i s = .next t → t.status.errcode = 3 →
    i = .rleDec ∧ s.latch.len.toNat % 2 = 1

/-- A coefficient region address that is not a multiple of 8 ends with ALIGN, even when L.len = 0
(R108). QUANT's own earlier check must have passed (R104). -/
def Obligations.MisalignedCoefficients : Prop :=
  ∀ s : State,
    (s.latch.dst.toNat % 8 ≠ 0 → CompletesInError .dct s 4) ∧
    (s.latch.src.toNat % 8 ≠ 0 → CompletesInError .idct s 4 ∧ CompletesInError .idctT s 4) ∧
    (0 < s.latch.q.toInt → s.latch.src.toNat % 8 ≠ 0 → CompletesInError .quant s 4) ∧
    (0 < s.latch.q.toInt → s.latch.dst.toNat % 8 ≠ 0 → CompletesInError .quant s 4)

/-- A source region, or the window of a command that writes MEM, outside MEM ends with RANGE once the
earlier checks have passed (R104, R109), and nothing else does: an empty region, being in range
wherever it lies, never causes RANGE. -/
def Obligations.RegionOutsideMemory : Prop :=
  (∀ (i : Instr) (s : State), ParametersReady i s →
    (¬ RegionIn s.mem.size s.latch.src.toNat (sourceLen i s) → CompletesInError i s 5) ∧
    (i = .psnr → ¬ RegionIn s.mem.size s.latch.src2.toNat s.latch.len.toNat →
      CompletesInError i s 5) ∧
    (i ≠ .psnr → ¬ RegionIn s.mem.size s.latch.dst.toNat s.latch.cap.toNat →
      CompletesInError i s 5)) ∧
  (∀ (i : Instr) (s t : State), exec i s = .next t → t.status.errcode = 5 →
    ¬ RegionIn s.mem.size s.latch.src.toNat (sourceLen i s) ∨
    (i = .psnr ∧ ¬ RegionIn s.mem.size s.latch.src2.toNat s.latch.len.toNat) ∨
    (i ≠ .psnr ∧ ¬ RegionIn s.mem.size s.latch.dst.toNat s.latch.cap.toNat)) ∧
  ∀ size base : Nat, RegionIn size base 0

/-- A window that shares a byte with the source ends with OVERLAP, whole window counted; PSNR never
does (R110). -/
def Obligations.WindowOverlapsSource : Prop :=
  (∀ (i : Instr) (s : State), i ≠ .psnr → ParametersReady i s →
    RegionIn s.mem.size s.latch.src.toNat (sourceLen i s) →
    RegionIn s.mem.size s.latch.dst.toNat s.latch.cap.toNat →
    ¬ RegionsApart s.latch.dst.toNat s.latch.cap.toNat s.latch.src.toNat (sourceLen i s) →
    CompletesInError i s 6) ∧
  ∀ s t : State, exec .psnr s = .next t → t.status.errcode ≠ 6

/-- An output longer than L.cap ends with CAPACITY, with nothing written (R111). -/
def Obligations.OutputExceedsCapacity : Prop :=
  ∀ (i : Instr) (s : State), i ≠ .psnr → ParametersReady i s → WindowReady s (sourceLen i s) →
    s.latch.cap.toNat < outputLen i s → CompletesInError i s 7

/-- Whatever its outcome, a completion changes only what R112 and R113 name: no operand register, no
byte but the OUT_LEN bytes from L.dst on, no source byte, and PSNR_HI:PSNR_LO only when PSNR succeeds;
an error and PSNR leave MEM as it is (R114). -/
def Obligations.CompletionLeavesOperands : Prop :=
  ∀ (i : Instr) (s t : State), exec i s = .next t →
    CompletionFrame s t ∧
    (∀ a, ¬ InRegion s.latch.dst.toNat t.outLen.toNat a → t.mem.read a = s.mem.read a) ∧
    (∀ a, InRegion s.latch.src.toNat (sourceLen i s) a → t.mem.read a = s.mem.read a) ∧
    (i = .psnr ∨ t.status.err = true → t.mem = s.mem) ∧
    (i ≠ .psnr ∨ t.status.err = true → t.psnrLo = s.psnrLo ∧ t.psnrHi = s.psnrHi)

/-- An operand a command does not read does not matter to it: SRC2 for every command but PSNR, the
window for PSNR (R32, R33). -/
def Obligations.UnreadOperandsDoNotMatter : Prop :=
  ∀ (i : Instr) (s t : State) (x y : Word), exec i s = .next t →
    (i ≠ .psnr → exec i { s with latch := { s.latch with src2 := x } } =
      .next { t with latch := { t.latch with src2 := x } }) ∧
    (i = .psnr → exec i { s with latch := { s.latch with dst := x, cap := y } } =
      .next { t with latch := { t.latch with dst := x, cap := y } })

/-! ## The register port -/

/-- `RegRead` of R24: a bad access sets HERR and returns 0; the thirteen registers return their read
values (R26, R28, R30 to R36) with no side effect, whatever BUSY is. -/
def Obligations.RegReadReturnsRegister : Prop :=
  ∀ s : State,
    (∀ off w, w ≠ .w4 ∨ off.toNat % 4 ≠ 0 ∨ 0x030 < off.toNat →
      ∃ u, HostDoes (.regRead off w) s u ∧ RefusedAccess (some 0) s u) ∧
    ∀ p ∈ [((0x000 : BitVec 12), (BitVec.ofBool s.ctrl.heie ++ BitVec.ofBool s.ctrl.ie).setWidth 32),
        (0x004, (BitVec.ofBool s.status.herr ++ (s.status.errcode ++ (0#1 ++
          (BitVec.ofBool s.status.err ++ (BitVec.ofBool s.status.done ++
            BitVec.ofBool s.status.busy))))).setWidth 32),
        (0x008, s.cmd), (0x00C, s.len), (0x010, s.srcAddr), (0x014, s.src2Addr),
        (0x018, s.dstAddr), (0x01C, s.dstCap), (0x020, s.quality), (0x024, s.outLen),
        (0x028, s.psnrLo), (0x02C, s.psnrHi), (0x030, BitVec.ofNat 32 s.mem.size)],
      HostDoes (.regRead p.1 .w4) s { s with reply := some (p.2.setWidth 64) }

/-- `RegWrite` of R25, its refusals: a bad access, and a write to a read-only register, is ignored and
sets HERR. -/
def Obligations.RegWriteRefusals : Prop :=
  ∀ (s : State) (v : BitVec 64),
    (∀ off w, w ≠ .w4 ∨ off.toNat % 4 ≠ 0 ∨ 0x030 < off.toNat →
      ∃ u, HostDoes (.regWrite off w v) s u ∧ RefusedAccess none s u) ∧
    ∀ off ∈ [(0x024 : BitVec 12), 0x028, 0x02C, 0x030],
      ∃ u, HostDoes (.regWrite off .w4 v) s u ∧ RefusedAccess none s u

/-- The six parameter registers take what is written, whatever BUSY is, and nothing else changes
(R25, R31 to R34, R238). -/
def Obligations.ParameterWritesAccepted : Prop :=
  ∀ (s : State) (v : BitVec 64),
    HostDoes (.regWrite 0x00C .w4 v) s { s with len := v.setWidth 32, reply := none } ∧
    HostDoes (.regWrite 0x010 .w4 v) s { s with srcAddr := v.setWidth 32, reply := none } ∧
    HostDoes (.regWrite 0x014 .w4 v) s { s with src2Addr := v.setWidth 32, reply := none } ∧
    HostDoes (.regWrite 0x018 .w4 v) s { s with dstAddr := v.setWidth 32, reply := none } ∧
    HostDoes (.regWrite 0x01C .w4 v) s { s with dstCap := v.setWidth 32, reply := none } ∧
    HostDoes (.regWrite 0x020 .w4 v) s { s with quality := v.setWidth 32, reply := none }

/-- A CTRL write (R27): bit 2 performs the soft reset and discards bits 1:0; otherwise IE and HEIE
take bits 0 and 1. It is accepted whatever BUSY is and never sets HERR. -/
def Obligations.CtrlWriteEffect : Prop :=
  ∀ (s : State) (v : BitVec 64),
    (v.getLsbD 2 = true →
      HostDoes (.regWrite 0x000 .w4 v) s { softReset s with reply := none }) ∧
    (v.getLsbD 2 = false →
      HostDoes (.regWrite 0x000 .w4 v) s
        { s with ctrl := { ie := v.getLsbD 0, heie := v.getLsbD 1 }, reply := none })

/-- A STATUS write (R29): write 1 to clear DONE, ERR with ERRCODE, and HERR; nothing else. -/
def Obligations.StatusWriteOneToClear : Prop :=
  ∀ (s : State) (v : BitVec 64),
    HostDoes (.regWrite 0x004 .w4 v) s
      { s with
        status := {
          busy := s.status.busy
          done := if v.getLsbD 1 then false else s.status.done
          err := if v.getLsbD 2 then false else s.status.err
          errcode := if v.getLsbD 2 then 0 else s.status.errcode
          herr := if v.getLsbD 8 then false else s.status.herr }
        reply := none }

/-- An accepted issue (R100): CMD and LATCH take the word and the operands, BUSY rises, DONE, ERR and
ERRCODE clear, HERR and everything else is kept, and only HERR can still drive IRQ. -/
def Obligations.IssueLatchesOperands : Prop :=
  ∀ (s : State) (v : BitVec 64), s.status.busy = false →
    ∃ u, HostDoes (.regWrite 0x008 .w4 v) s u ∧
      u = { s with
            cmd := v.setWidth 32
            latch := { cmd := v.setWidth 32, len := s.len, src := s.srcAddr, src2 := s.src2Addr,
                       dst := s.dstAddr, cap := s.dstCap, q := s.quality }
            status := { busy := true, done := false, err := false, errcode := 0,
                        herr := s.status.herr }
            reply := none } ∧
      irq u = (s.ctrl.heie && s.status.herr)

/-- A CMD write while BUSY = 1 is ignored and sets HERR (R101). -/
def Obligations.CmdWriteWhileBusyIgnored : Prop :=
  ∀ (s : State) (v : BitVec 64), s.status.busy = true →
    ∃ u, HostDoes (.regWrite 0x008 .w4 v) s u ∧ RefusedAccess none s u

/-! ## The memory port -/

/-- `HostMemRead` of R63: refused while BUSY = 1 or past MEM_BYTES; otherwise the little-endian number
the bytes make, with no side effect. -/
def Obligations.HostMemReadValue : Prop :=
  ∀ (s : State) (a : BitVec 32) (w : Width),
    (s.status.busy = true ∨ s.mem.size < a.toNat + w.bytes →
      ∃ u, HostDoes (.memRead a w) s u ∧ RefusedAccess (some 0) s u) ∧
    (s.status.busy = false → a.toNat + w.bytes ≤ s.mem.size →
      ∃ r : BitVec 64, HostDoes (.memRead a w) s { s with reply := some r } ∧
        r.toNat = ∑ k ∈ Finset.range w.bytes, (s.mem.read (a.toNat + k)).toNat * 256 ^ k)

/-- `HostMemWrite` of R64: refused while BUSY = 1 or past MEM_BYTES, with no byte written; otherwise
byte `k` of the value goes to address `a + k`, and no other byte and nothing else changes. -/
def Obligations.HostMemWriteStores : Prop :=
  ∀ (s : State) (a : BitVec 32) (w : Width) (v : BitVec 64),
    (s.status.busy = true ∨ s.mem.size < a.toNat + w.bytes →
      ∃ u, HostDoes (.memWrite a w v) s u ∧ RefusedAccess none s u) ∧
    (s.status.busy = false → a.toNat + w.bytes ≤ s.mem.size →
      ∃ u, HostDoes (.memWrite a w v) s u ∧
        u = { s with mem := u.mem, reply := none } ∧ u.mem.size = s.mem.size ∧
        (∀ k, k < w.bytes → u.mem.read (a.toNat + k) = v.extractLsb' (8 * k) 8) ∧
        ∀ x, ¬ InRegion a.toNat w.bytes x → u.mem.read x = s.mem.read x)

/-- A load after a store of the same width and address returns the stored value, cut to the width. -/
def Obligations.StoreThenLoad : Prop :=
  ∀ (s u : State) (a : BitVec 32) (w : Width) (v : BitVec 64), s.status.busy = false →
    a.toNat + w.bytes ≤ s.mem.size → HostDoes (.memWrite a w v) s u →
    ∃ r : BitVec 64, HostDoes (.memRead a w) u { u with reply := some r } ∧
      r.toNat = v.toNat % 2 ^ (8 * w.bytes)

/-- A coefficient in MEM and every host read that lies within it see the same little-endian bytes
(R62): byte `k` is bits `8k + 7 : 8k`, and a host read of any of the four widths at offset `k` returns
the bits from `8k` on. -/
def Obligations.CoefficientByteOrder : Prop :=
  (∀ (m : Memory) (a k : Nat), k < 8 → m.read (a + k) = (m.readF64 a).extractLsb' (8 * k) 8) ∧
  ∀ (s : State) (a : Nat) (b : BitVec 32) (w : Width) (k : Nat), s.status.busy = false →
    b.toNat = a + k → k + w.bytes ≤ 8 → b.toNat + w.bytes ≤ s.mem.size →
    ∃ r : BitVec 64, HostDoes (.memRead b w) s { s with reply := some r } ∧
      r.toNat = (s.mem.readF64 a).toNat / 2 ^ (8 * k) % 2 ^ (8 * w.bytes)

/-! ## Reset -/

/-- The reset values of R230, with MEMSZ, IRQ and STATUS as they read. -/
def Obligations.ResetValues : Prop :=
  State.reset.ctrl = { ie := false, heie := false } ∧
  State.reset.status =
    { busy := false, done := false, err := false, errcode := 0, herr := false } ∧
  State.reset.status.word = 0 ∧ State.reset.cmd = 0 ∧ State.reset.len = 0 ∧
  State.reset.srcAddr = 0 ∧ State.reset.src2Addr = 0 ∧ State.reset.dstAddr = 0 ∧
  State.reset.dstCap = 0 ∧ State.reset.quality = 0 ∧ State.reset.outLen = 0 ∧
  State.reset.psnrLo = 0 ∧ State.reset.psnrHi = 0 ∧
  State.reset.latch = { cmd := 0, len := 0, src := 0, src2 := 0, dst := 0, cap := 0, q := 0 } ∧
  (readReg .memsz State.reset).toNat = Config.memBytes ∧ irq State.reset = false

/-- The soft reset (R232): every register at its reset value and LATCH zero; MEM is unchanged when
BUSY = 0, and outside the latched window when BUSY = 1. Nothing is said of the window's bytes, which
are free. -/
def Obligations.SoftResetEffect : Prop :=
  ∀ s : State, ∃ u,
    (∀ v : BitVec 64, v.getLsbD 2 = true → HostDoes (.regWrite 0x000 .w4 v) s u) ∧
    u = { State.reset with mem := u.mem, draws := u.draws, turns := s.turns } ∧
    u.mem.size = s.mem.size ∧
    (s.status.busy = false → u.mem = s.mem) ∧
    (s.status.busy = true → ∀ a, ¬ InRegion s.latch.dst.toNat s.latch.cap.toNat a →
      u.mem.read a = s.mem.read a)

/-- The reset input (R230, R231): the registers at their reset values, MEM_BYTES kept, and every byte
of MEM unspecified. That an unspecified byte is the free byte of the state's next draw number is the
model's choice (log 3, log 14), and so is that the reset input is a turn and keeps the turns still to
come (log 10). -/
def Obligations.HardResetEffect : Prop :=
  ∀ (s : State) (ts : List Turn), s.turns = .hardReset :: ts →
    ∃ u, step s = .next u ∧
      u = { State.reset with mem := u.mem, draws := s.draws + 1, turns := ts } ∧
      u.mem.size = s.mem.size ∧ ∀ a, u.mem.read a = Config.freeByte s.draws a

/-- After either reset the block is idle: BUSY = 0, IRQ deasserted, both enables 0 (R234). -/
def Obligations.IdleAfterReset : Prop :=
  ∀ s t : State, NextResets s → step s = .next t →
    t.status.busy = false ∧ irq t = false ∧ t.ctrl.ie = false ∧ t.ctrl.heie = false

/-! ## Invariants -/

/-- Every step keeps the invariant: MEM in canonical form with a legal size, ERRCODE at most 7 and
non-zero exactly with ERR, a running command with neither DONE nor ERR and its word in CMD, and free
draws never repeated. -/
def Obligations.StepKeepsInvariant : Prop :=
  ∀ s t : State, Inv s → step s = .next t → Inv t

/-- The state after reset meets the invariant. -/
def Obligations.ResetMeetsInvariant : Prop := Inv State.reset

/-- MEM_BYTES is a constant: no step changes it, and MEMSZ always reads it (R36). -/
def Obligations.MemorySizeIsConstant : Prop :=
  (∀ s t : State, step s = .next t → t.mem.size = s.mem.size) ∧
  ∀ s : State, s.mem.wf → (readReg .memsz s).toNat = s.mem.size

/-! ## What the commands compute -/

/-- The RLE round trip (R145): decoding inverts encoding, encoding does not invert decoding of a
stream no encoder made, and on the hardware RLE.ENC into a window, then RLE.DEC of its OUT_LEN bytes into a third window, gives the
source bytes back. -/
def Obligations.RleRoundTripOnHardware : Prop :=
  (∀ X : List Byte, rleDec (rleEnc X) = X) ∧
  (∀ Y : List Byte, (∀ X, Y ≠ rleEnc X) → rleEnc (rleDec Y) ≠ Y) ∧
  rleDec [2, 5, 3, 5] = [5, 5, 5, 5, 5] ∧ rleEnc (rleDec [2, 5, 3, 5]) = [5, 5] ∧
  ∀ (s t : State) (dst cap : Word), exec .rleEnc s = .next t → t.status.err = false →
    RegionIn s.mem.size dst.toNat cap.toNat →
    RegionsApart dst.toNat cap.toNat s.latch.dst.toNat t.outLen.toNat →
    s.latch.len.toNat ≤ cap.toNat →
    ∃ u, exec .rleDec { t with latch := { t.latch with src := s.latch.dst, len := t.outLen,
                                                       dst := dst, cap := cap } } = .next u ∧
      u.status.err = false ∧ u.outLen = s.latch.len ∧
      u.mem.readBytes dst.toNat s.latch.len.toNat = sourceBytes s

/-- The properties of an encoded stream (R141): even length, counts in 1..255 that sum to the length of
the source, and equal neighbouring values only after a full run. -/
def Obligations.RleStreamProperties : Prop :=
  ∀ X : List Byte,
    (rleEnc X).length % 2 = 0 ∧
    (∀ j, 2 * j < (rleEnc X).length →
      1 ≤ ((rleEnc X).getD (2 * j) 0).toNat ∧ ((rleEnc X).getD (2 * j) 0).toNat ≤ 255) ∧
    (∑ j ∈ Finset.range ((rleEnc X).length / 2), ((rleEnc X).getD (2 * j) 0).toNat) = X.length ∧
    ∀ j, 2 * j + 3 < (rleEnc X).length →
      (rleEnc X).getD (2 * j + 1) 0 = (rleEnc X).getD (2 * j + 3) 0 →
      (rleEnc X).getD (2 * j) 0 = 255

/-- PSNR of a buffer with itself is exactly 100.0, and PSNR is symmetric bit for bit, for every
LOG10_FN (R132). -/
def Obligations.PsnrIdentityAndSymmetry : Prop :=
  ∀ (log10 : F64 → F64) (A B : List Byte),
    psnr log10 A A = 0x4059000000000000 ∧ (A.length = B.length → psnr log10 A B = psnr log10 B A)

/-- The exact integer sum is the sequential binary64 sum, every partial sum below 2^53, and MSE is
zero exactly when the sum is; otherwise MSE is a normal number (R131). -/
def Obligations.SquaredErrorSumIsExact : Prop :=
  ∀ A B : List Byte, A.length = B.length → A.length ≤ 2 ^ 31 →
    (∀ a b, squaredDiff a b ≤ 65025) ∧ sumSquares A B < 2 ^ 47 ∧
    (List.zipWith squaredDiff A B).foldl (fun x d => fadd x (f64OfNat d)) 0 =
      f64OfNat (sumSquares A B) ∧
    (0 < A.length →
      (fmag (fdiv (f64OfNat (sumSquares A B)) (f64OfNat A.length)) = 0 ↔ sumSquares A B = 0) ∧
      (sumSquares A B ≠ 0 →
        isFinite (fdiv (f64OfNat (sumSquares A B)) (f64OfNat A.length)) = true ∧
        fexp (fdiv (f64OfNat (sumSquares A B)) (f64OfNat A.length)) ≠ 0))

/-- Quantization is idempotent when the result is infinite, NaN, or at most 2^53 in magnitude, and the
bound is needed (R182). -/
def Obligations.QuantIdempotentWithinBound : Prop :=
  (∀ (q : Int) (x : F64), 1 ≤ q → q < 2 ^ 31 →
    (isNaN (quantOne q x) = true ∨ isInf (quantOne q x) = true ∨
      fmag (quantOne q x) ≤ 2 ^ 53 * funit) →
    quantOne q (quantOne q x) = quantOne q x) ∧
  quantOne 3 0x43405C6A33CFDD3D = 0x43405C6A33CFDD3E ∧
  quantOne 3 0x43405C6A33CFDD3E = 0x43405C6A33CFDD3F

/-- The conversion to a pixel byte (R163): NaN gives 0, an infinity 255 or 0, a finite value its
nearest integer (halves away from zero) or its integer part, clamped to 0..255. -/
def Obligations.ConversionRoundsAndClamps : Prop :=
  ∀ (y : F64) (rnd : Bool),
    (isNaN y = true → conv rnd y = 0) ∧
    (isInf y = true → conv rnd y = if fsign y then 0 else 255) ∧
    (isFinite y = true → fsign y = true → conv rnd y = 0) ∧
    (isFinite y = true → fsign y = false →
      (conv false y).toNat = min ((2 * fmag y + funit) / (2 * funit)) 255 ∧
      (conv true y).toNat = min (fmag y / funit) 255)

/-- Sums, products and quotients of finite operands are the exact result rounded once, to nearest,
ties to even (R10). What R10 leaves to the IEEE 754 standard without printing it, here the sign of a
product or quotient and infinity from half a unit past the largest finite datum on, is the model's
reading of that standard (log 9, PRESUMED). -/
def Obligations.ArithmeticRoundsOnce : Prop :=
  ∀ x y : F64, isFinite x = true → isFinite y = true →
    (fval x + fval y ≠ 0 →
      NearestEven (decide (fval x + fval y < 0)) (fval x + fval y).natAbs 1 (fadd x y)) ∧
    NearestEven (fsign x != fsign y) (fmag x * fmag y) funit (fmul x y) ∧
    (fmag y ≠ 0 → NearestEven (fsign x != fsign y) (fmag x * funit) (fmag y) (fdiv x y))

/-- The square root of a positive finite datum is the nearest datum: no finite datum lies on the other
side of the midpoint between them (R10; the standard's details are log 9, PRESUMED). -/
def Obligations.SquareRootRoundsOnce : Prop :=
  ∀ x : F64, isFinite x = true → fsign x = false → fmag x ≠ 0 →
    isFinite (fsqrt x) = true ∧ fsign (fsqrt x) = false ∧
    ∀ y, isFinite y = true →
      (fmag (fsqrt x) < fmag y →
        4 * (fmag x * funit) ≤ (fmag (fsqrt x) + fmag y) * (fmag (fsqrt x) + fmag y)) ∧
      (fmag y < fmag (fsqrt x) →
        (fmag (fsqrt x) + fmag y) * (fmag (fsqrt x) + fmag y) ≤ 4 * (fmag x * funit))

/-- The definitions the transforms share (R160): the cosine's argument with its three roundings in
order, the scale, and COS_FN of the argument. For `n < N <= 2^31` the sum `f64(n) + 0.5` is exact, and
for `k = 0` the argument is +0.0. -/
def Obligations.TransformParameters : Prop :=
  ∀ (cosFn : F64 → F64) (n k N : Nat), n < N → k < N →
    dctArg n k N = fdiv (fmul (fmul 0x400921FB54442D18 (fadd (f64OfNat n) 0x3FE0000000000000))
      (f64OfNat k)) (f64OfNat N) ∧
    dctScale k N = fsqrt (fdiv (if k = 0 then 0x3FF0000000000000 else 0x4000000000000000)
      (f64OfNat N)) ∧
    dctCos cosFn n k N = cosFn (dctArg n k N) ∧
    (N ≤ 2 ^ 31 →
      isFinite (fadd (f64OfNat n) 0x3FE0000000000000) = true ∧
      2 * fval (fadd (f64OfNat n) 0x3FE0000000000000) = ((2 * n + 1 : Nat) : Int) * funit ∧
      dctArg n 0 N = 0 ∧ dctCos cosFn n 0 N = cosFn 0)

/-- Dct, Recon and Idct, every rounding in its place (R160, R161, R162, R164, R165): the inner sums
are left folds in ascending index order from +0.0 of the terms the rules write, with the argument and
the scale of R160 written out, and Idct converts each value of Recon. -/
def Obligations.TransformSumsAscend : Prop :=
  ∀ (cosFn : F64 → F64) (j : Nat),
    (∀ X : List Byte, j < X.length →
      (dct cosFn X).getD j 0 =
        fmul (fsqrt (fdiv (if j = 0 then 0x3FF0000000000000 else 0x4000000000000000)
            (f64OfNat X.length)))
          (X.zipIdx.foldl (fun s p => fadd s (fmul (fsub (f64OfNat p.1.toNat) 0x4060000000000000)
            (cosFn (fdiv (fmul (fmul 0x400921FB54442D18
              (fadd (f64OfNat p.2) 0x3FE0000000000000)) (f64OfNat j)) (f64OfNat X.length))))) 0)) ∧
    ∀ T : List F64, j < T.length →
      (recon cosFn T).getD j 0 = fadd
        (T.zipIdx.foldl (fun s p => fadd s (fmul
          (fmul (fsqrt (fdiv (if p.2 = 0 then 0x3FF0000000000000 else 0x4000000000000000)
            (f64OfNat T.length))) p.1)
          (cosFn (fdiv (fmul (fmul 0x400921FB54442D18
            (fadd (f64OfNat j) 0x3FE0000000000000)) (f64OfNat p.2)) (f64OfNat T.length))))) 0)
        0x4060000000000000 ∧
      ∀ rnd : Bool, (idct cosFn rnd T).getD j 0 = conv rnd ((recon cosFn T).getD j 0)

/-- When every sample is 128 every coefficient is +0.0, provided COS_FN returns finite values
(43_dct.md section 2, corner cases of R161). -/
def Obligations.FlatBufferTransformsToZero : Prop :=
  ∀ (cosFn : F64 → F64) (n : Nat), n ≤ 2 ^ 31 → (∀ x, isFinite (cosFn x) = true) →
    dct cosFn (List.replicate n 128) = List.replicate n 0

/-- One sample transforms to itself minus 128 when COS_FN(+0.0) = 1.0 (corner cases of R161). -/
def Obligations.SingleSampleTransform : Prop :=
  ∀ (cosFn : F64 → F64) (x : Byte), cosFn 0 = 0x3FF0000000000000 →
    dct cosFn [x] = [fsub (f64OfNat x.toNat) f128]
end

