-- ==== Sys2Proof/Laws/Memory.lean ====
section
/-! SUPPORT. What every operation on MEM does, said once: read after write, the bytes left alone, and
the canonical form kept. -/

namespace Sys2Proof.Machine

/-! ## One byte -/

theorem findCell_insertCell_same (a : Nat) (b : Byte) (cs : List Host.Cell) :
    findCell a (insertCell a b cs) = some b := by
  induction cs with
  | nil => simp [insertCell, findCell]
  | cons c cs ih =>
    unfold insertCell
    split
    · simp [findCell]
    · split
      · simp [findCell]
      · rename_i h; simp [findCell, Ne.symm h, ih]

theorem findCell_insertCell_ne {a x : Nat} (b : Byte) (cs : List Host.Cell) (h : x ≠ a) :
    findCell x (insertCell a b cs) = findCell x cs := by
  induction cs with
  | nil => simp [insertCell, findCell, Ne.symm h]
  | cons c cs ih =>
    unfold insertCell
    split
    · simp [findCell, Ne.symm h]
    · split
      · rename_i hc; simp [findCell, Ne.symm h, ← hc]
      · simp [findCell, ih]

@[simp] theorem write_size (m : Memory) (a : Nat) (b : Byte) : (m.write a b).size = m.size := by
  unfold Memory.write; split <;> rfl

@[simp] theorem write_epoch (m : Memory) (a : Nat) (b : Byte) : (m.write a b).epoch = m.epoch := by
  unfold Memory.write; split <;> rfl

/-- Read after write: an address of MEM reads as the byte just written. -/
theorem read_write_same {m : Memory} {a : Nat} (b : Byte) (h : a < m.size) :
    (m.write a b).read a = b := by
  simp [Memory.write, h, Memory.read, findCell_insertCell_same]

/-- A write leaves every other address alone. -/
theorem read_write_ne {m : Memory} {a x : Nat} (b : Byte) (h : x ≠ a) :
    (m.write a b).read x = m.read x := by
  unfold Memory.write
  split
  · simp [Memory.read, findCell_insertCell_ne b m.cells h]
  · rfl

/-- Two memories that differ only in `size` read the same. -/
theorem read_congr {m m' : Memory} (he : m.epoch = m'.epoch) (hc : m.cells = m'.cells) (a : Nat) :
    m.read a = m'.read a := by
  simp [Memory.read, he, hc]

/-! ## Many bytes -/

@[simp] theorem writeBytes_nil (m : Memory) (a : Nat) : m.writeBytes a [] = m := rfl

@[simp] theorem writeBytes_cons (m : Memory) (a : Nat) (b : Byte) (bs : List Byte) :
    m.writeBytes a (b :: bs) = (m.write a b).writeBytes (a + 1) bs := rfl

@[simp] theorem writeBytes_size (m : Memory) (a : Nat) (bs : List Byte) :
    (m.writeBytes a bs).size = m.size := by
  induction bs generalizing m a with
  | nil => rfl
  | cons b bs ih => simp [ih]

@[simp] theorem writeBytes_epoch (m : Memory) (a : Nat) (bs : List Byte) :
    (m.writeBytes a bs).epoch = m.epoch := by
  induction bs generalizing m a with
  | nil => rfl
  | cons b bs ih => simp [ih]

/-- A store leaves every address outside its bytes alone. -/
theorem read_writeBytes_outside (m : Memory) (a x : Nat) (bs : List Byte)
    (h : x < a ∨ a + bs.length ≤ x) : (m.writeBytes a bs).read x = m.read x := by
  induction bs generalizing m a with
  | nil => rfl
  | cons b bs ih =>
    rw [List.length_cons] at h
    rw [writeBytes_cons, ih _ _ (by omega), read_write_ne b (by omega)]

/-- A store inside MEM reads back byte for byte. -/
theorem read_writeBytes_inside (m : Memory) (a k : Nat) (bs : List Byte) (hk : k < bs.length)
    (h : a + k < m.size) : (m.writeBytes a bs).read (a + k) = bs[k] := by
  induction bs generalizing m a k with
  | nil => simp at hk
  | cons b bs ih =>
    rw [writeBytes_cons]
    cases k with
    | zero =>
      rw [read_writeBytes_outside _ _ _ _ (by omega)]
      exact read_write_same b h
    | succ k =>
      have := ih (m.write a b) (a + 1) k (by simpa using hk) (by simpa using by omega)
      simpa [show a + 1 + k = a + (k + 1) by omega] using this

@[simp] theorem readBytes_length (m : Memory) (a n : Nat) : (m.readBytes a n).length = n := by
  induction n generalizing a with
  | zero => rfl
  | succ n ih => simp [Memory.readBytes, ih]

theorem readBytes_getElem (m : Memory) (a n k : Nat) (h : k < (m.readBytes a n).length) :
    (m.readBytes a n)[k] = m.read (a + k) := by
  induction n generalizing a k with
  | zero => simp [Memory.readBytes] at h
  | succ n ih =>
    cases k with
    | zero => simp [Memory.readBytes]
    | succ k =>
      simp only [Memory.readBytes, List.getElem_cons_succ]
      rw [ih]
      congr 1; omega

/-- Byte sequences depend only on the bytes they hold. -/
theorem readBytes_congr {m m' : Memory} {a n : Nat}
    (h : ∀ x, a ≤ x → x < a + n → m.read x = m'.read x) : m.readBytes a n = m'.readBytes a n := by
  induction n generalizing a with
  | zero => rfl
  | succ n ih =>
    simp only [Memory.readBytes]
    rw [h a (by omega) (by omega), ih (fun x h1 h2 => h x (by omega) (by omega))]

theorem readNat_congr {m m' : Memory} {a n : Nat}
    (h : ∀ x, a ≤ x → x < a + n → m.read x = m'.read x) : m.readNat a n = m'.readNat a n := by
  induction n generalizing a with
  | zero => rfl
  | succ n ih =>
    simp only [Memory.readNat]
    rw [h a (by omega) (by omega), ih (fun x h1 h2 => h x (by omega) (by omega))]

/-- Reading back what was just stored. -/
theorem readBytes_writeBytes (m : Memory) (a : Nat) (bs : List Byte)
    (h : bs.length = 0 ∨ a + bs.length ≤ m.size) :
    (m.writeBytes a bs).readBytes a bs.length = bs := by
  apply List.ext_getElem (by simp)
  intro k h1 h2
  rw [readBytes_getElem, read_writeBytes_inside _ _ _ _ h2 (by omega)]

/-! ## Numbers in MEM, little-endian -/

theorem readNat_lt (m : Memory) (a n : Nat) : m.readNat a n < 256 ^ n := by
  induction n generalizing a with
  | zero => simp [Memory.readNat]
  | succ n ih =>
    have h1 := ih (a + 1)
    have h2 := (m.read a).isLt
    simp only [Memory.readNat, Nat.pow_succ]
    omega

/-- The first `k` bytes of a number are its low part, the rest its high part (20_memory.md R62). -/
theorem readNat_split (m : Memory) (a k n : Nat) :
    m.readNat a (k + n) = m.readNat a k + 256 ^ k * m.readNat (a + k) n := by
  induction k generalizing a with
  | zero => simp [Memory.readNat]
  | succ k ih =>
    rw [show k + 1 + n = (k + n) + 1 by omega]
    simp only [Memory.readNat]
    rw [ih, show a + 1 + k = a + (k + 1) by omega]
    ring

/-- A narrower number inside a wider one is its bits from that byte on. -/
theorem readNat_within (m : Memory) (a k n l : Nat) (h : k + n ≤ l) :
    m.readNat (a + k) n = m.readNat a l / 256 ^ k % 256 ^ n := by
  obtain ⟨d, rfl⟩ := Nat.exists_eq_add_of_le h
  rw [Nat.add_assoc, readNat_split m a k (n + d), readNat_split m (a + k) n d,
    Nat.add_mul_div_left _ _ (by positivity), Nat.div_eq_of_lt (readNat_lt m a k), Nat.zero_add,
    Nat.add_mul_mod_self_left, Nat.mod_eq_of_lt (readNat_lt m (a + k) n)]

@[simp] theorem leBytes_length (n v : Nat) : (leBytes n v).length = n := by
  induction n generalizing v with
  | zero => rfl
  | succ n ih => simp [leBytes, ih]

/-- The number that stored little-endian bytes make is the number stored, cut to their width. -/
theorem readNat_eq_of_leBytes (m : Memory) (a n v : Nat)
    (h : ∀ k (hk : k < (leBytes n v).length), m.read (a + k) = (leBytes n v)[k]) :
    m.readNat a n = v % 256 ^ n := by
  induction n generalizing a v with
  | zero => simp [Memory.readNat, Nat.mod_one]
  | succ n ih =>
    have h0 := h 0 (by simp)
    have hs : m.readNat (a + 1) n = v / 256 % 256 ^ n := by
      apply ih
      intro k hk
      have := h (k + 1) (by simpa using hk)
      simpa [leBytes, show a + (k + 1) = a + 1 + k by omega] using this
    simp only [Memory.readNat, hs]
    simp only [leBytes, Nat.add_zero, List.getElem_cons_zero] at h0
    rw [h0, Nat.pow_succ, Nat.mul_comm (256 ^ n) 256, Nat.mod_mul]
    simp

theorem readNat_writeNat (m : Memory) (a n v : Nat) (h : n = 0 ∨ a + n ≤ m.size) :
    (m.writeNat a n v).readNat a n = v % 256 ^ n := by
  apply readNat_eq_of_leBytes
  intro k hk
  have : k < n := by simpa using hk
  exact read_writeBytes_inside _ _ _ _ hk (by omega)

@[simp] theorem f64Bytes_length (x : F64) : (f64Bytes x).length = 8 := by simp [f64Bytes]

@[simp] theorem f64sBytes_length (X : List F64) : (f64sBytes X).length = 8 * X.length := by
  induction X with
  | nil => rfl
  | cons x xs ih =>
    simp only [f64sBytes, List.flatMap_cons, List.length_append, f64Bytes_length,
      List.length_cons] at ih ⊢
    omega

/-- Byte `8k + j` of stored coefficients is byte `j` of coefficient `k` (40_command.md R103). -/
theorem f64sBytes_getElem (X : List F64) (k j : Nat) (hk : k < X.length) (hj : j < 8)
    (h : 8 * k + j < (f64sBytes X).length) :
    (f64sBytes X)[8 * k + j] = (f64Bytes X[k])[j]'(by simpa using hj) := by
  induction X generalizing k with
  | nil => simp at hk
  | cons x xs ih =>
    cases k with
    | zero =>
      have : (f64sBytes (x :: xs)) = f64Bytes x ++ f64sBytes xs := by simp [f64sBytes]
      simp only [this, Nat.mul_zero, Nat.zero_add, List.getElem_cons_zero]
      rw [List.getElem_append_left]
    | succ k =>
      have e : (f64sBytes (x :: xs)) = f64Bytes x ++ f64sBytes xs := by simp [f64sBytes]
      simp only [e, List.getElem_cons_succ]
      rw [List.getElem_append_right (by simp; omega)]
      have hx : 8 * (k + 1) + j - (f64Bytes x).length = 8 * k + j := by simp; omega
      simp only [hx]
      exact ih k (by simpa using hk) (by simp at hk ⊢; omega)

/-- A coefficient stored inside MEM reads back as its `canon` (20_memory.md R67). -/
theorem readF64_writeBytes (m : Memory) (a : Nat) (X : List F64) (k : Nat) (hk : k < X.length)
    (h : a + 8 * X.length ≤ m.size) :
    (m.writeBytes a (f64sBytes X)).readF64 (a + 8 * k) = canon X[k] := by
  have hn : (m.writeBytes a (f64sBytes X)).readNat (a + 8 * k) 8 = (canon X[k]).toNat % 256 ^ 8 := by
    apply readNat_eq_of_leBytes
    intro j hj
    have hj8 : j < 8 := by simpa using hj
    have hb : 8 * k + j < (f64sBytes X).length := by simp; omega
    rw [Nat.add_assoc, read_writeBytes_inside _ _ _ _ hb (by omega),
      f64sBytes_getElem X k j hk hj8 hb]
    rfl
  unfold Memory.readF64
  rw [hn]
  apply BitVec.eq_of_toNat_eq
  have := (canon X[k]).isLt
  rw [BitVec.toNat_ofNat]
  omega

@[simp] theorem readF64s_length (m : Memory) (a n : Nat) : (m.readF64s a n).length = n := by
  simp [Memory.readF64s]

theorem readF64s_congr {m m' : Memory} {a n : Nat}
    (h : ∀ x, a ≤ x → x < a + 8 * n → m.read x = m'.read x) : m.readF64s a n = m'.readF64s a n := by
  unfold Memory.readF64s
  apply List.map_congr_left
  intro i hi
  rw [List.mem_range] at hi
  unfold Memory.readF64
  rw [readNat_congr (fun x h1 h2 => h x (by omega) (by omega))]

/-! ## The canonical form -/

theorem mem_insertCell {a : Nat} {b : Byte} {cs : List Host.Cell} {c : Host.Cell}
    (h : c ∈ insertCell a b cs) : c = (a, b) ∨ c ∈ cs := by
  induction cs with
  | nil => simpa [insertCell] using h
  | cons d ds ih =>
    unfold insertCell at h
    split at h
    · simpa using h
    · split at h
      · rcases List.mem_cons.1 h with h | h
        · exact .inl h
        · exact .inr (List.mem_cons_of_mem _ h)
      · rcases List.mem_cons.1 h with h | h
        · exact .inr (h ▸ List.mem_cons_self)
        · exact (ih h).imp_right (List.mem_cons_of_mem _)

theorem pairwise_insertCell (a : Nat) (b : Byte) (cs : List Host.Cell)
    (h : cs.Pairwise (fun c d => c.1 < d.1)) :
    (insertCell a b cs).Pairwise (fun c d => c.1 < d.1) := by
  induction cs with
  | nil => simp [insertCell]
  | cons c cs ih =>
    rw [List.pairwise_cons] at h
    unfold insertCell
    split
    · rename_i hac
      refine List.pairwise_cons.2 ⟨fun d hd => ?_, List.pairwise_cons.2 h⟩
      rcases List.mem_cons.1 hd with rfl | hd
      · exact hac
      · exact Nat.lt_trans hac (h.1 d hd)
    · split
      · rename_i hac
        exact List.pairwise_cons.2 ⟨fun d hd => by simpa [hac] using h.1 d hd, h.2⟩
      · rename_i h1 h2
        refine List.pairwise_cons.2 ⟨fun d hd => ?_, ih h.2⟩
        rcases mem_insertCell hd with rfl | hd
        · show c.1 < a
          omega
        · exact h.1 d hd

/-- A write keeps the canonical form. -/
theorem write_wf {m : Memory} (a : Nat) (b : Byte) (h : m.wf) : (m.write a b).wf := by
  unfold Memory.write
  split
  · rename_i ha
    refine ⟨h.1, pairwise_insertCell a b m.cells h.2.1, fun c hc => ?_⟩
    rcases mem_insertCell hc with rfl | hc
    · exact ha
    · exact h.2.2 c hc
  · exact h

/-- A store keeps the canonical form. -/
theorem writeBytes_wf {m : Memory} (a : Nat) (bs : List Byte) (h : m.wf) :
    (m.writeBytes a bs).wf := by
  induction bs generalizing m a with
  | nil => exact h
  | cons b bs ih => exact ih (a + 1) (write_wf a b h)

theorem writeNat_wf {m : Memory} (a n v : Nat) (h : m.wf) : (m.writeNat a n v).wf :=
  writeBytes_wf a _ h

/-- MEM right after a hard reset has the canonical form. -/
theorem clear_wf {m : Memory} (e : Nat) (h : m.wf) : Memory.wf { m with epoch := e, cells := [] } :=
  ⟨h.1, List.Pairwise.nil, by simp⟩

/-- The size of every legal memory (00_scope.md R6). -/
theorem memBytes_legal :
    Config.memBytes % 8 = 0 ∧ 8 ≤ Config.memBytes ∧ Config.memBytes ≤ 2 ^ 31 := by
  have := Config.memGranules.isLt
  unfold Config.memBytes
  omega

theorem reset_mem_wf : State.reset.mem.wf := ⟨memBytes_legal, List.Pairwise.nil, by simp [State.reset]⟩

/-! ## Free bytes -/

@[simp] theorem freeBytes_length (d : Nat) (w : Region) (size : Nat) :
    (freeBytes d w size).length = min w.len (size - w.base) := by
  simp [freeBytes]

theorem freeBytes_getElem (d : Nat) (w : Region) (size k : Nat)
    (h : k < (freeBytes d w size).length) :
    (freeBytes d w size)[k] = Config.freeByte d (w.base + k) := by
  simp [freeBytes]

end Sys2Proof.Machine
end

