-- ==== Sys2Proof/Laws/State.lean ====
section
/-! SUPPORT. One lemma per field per update of the state, so that no proof unfolds a record update. -/

namespace Sys2Proof.Machine

/-! ## raise -/

@[simp] theorem raise_ctrl (e : CmdError) (s : State) : (raise e s).ctrl = s.ctrl := rfl
@[simp] theorem raise_status (e : CmdError) (s : State) :
    (raise e s).status = s.status.failed e := rfl
@[simp] theorem raise_cmd (e : CmdError) (s : State) : (raise e s).cmd = s.cmd := rfl
@[simp] theorem raise_len (e : CmdError) (s : State) : (raise e s).len = s.len := rfl
@[simp] theorem raise_srcAddr (e : CmdError) (s : State) : (raise e s).srcAddr = s.srcAddr := rfl
@[simp] theorem raise_src2Addr (e : CmdError) (s : State) : (raise e s).src2Addr = s.src2Addr := rfl
@[simp] theorem raise_dstAddr (e : CmdError) (s : State) : (raise e s).dstAddr = s.dstAddr := rfl
@[simp] theorem raise_dstCap (e : CmdError) (s : State) : (raise e s).dstCap = s.dstCap := rfl
@[simp] theorem raise_quality (e : CmdError) (s : State) : (raise e s).quality = s.quality := rfl
@[simp] theorem raise_outLen (e : CmdError) (s : State) : (raise e s).outLen = 0 := rfl
@[simp] theorem raise_psnrLo (e : CmdError) (s : State) : (raise e s).psnrLo = s.psnrLo := rfl
@[simp] theorem raise_psnrHi (e : CmdError) (s : State) : (raise e s).psnrHi = s.psnrHi := rfl
@[simp] theorem raise_latch (e : CmdError) (s : State) : (raise e s).latch = s.latch := rfl
@[simp] theorem raise_mem (e : CmdError) (s : State) : (raise e s).mem = s.mem := rfl
@[simp] theorem raise_draws (e : CmdError) (s : State) : (raise e s).draws = s.draws := rfl
@[simp] theorem raise_turns (e : CmdError) (s : State) : (raise e s).turns = s.turns := rfl
@[simp] theorem raise_reply (e : CmdError) (s : State) : (raise e s).reply = s.reply := rfl

/-! ## commitBytes -/

@[simp] theorem commitBytes_ctrl (out : List Byte) (s : State) :
    (commitBytes out s).ctrl = s.ctrl := rfl
@[simp] theorem commitBytes_status (out : List Byte) (s : State) :
    (commitBytes out s).status = s.status.succeeded := rfl
@[simp] theorem commitBytes_cmd (out : List Byte) (s : State) :
    (commitBytes out s).cmd = s.cmd := rfl
@[simp] theorem commitBytes_len (out : List Byte) (s : State) :
    (commitBytes out s).len = s.len := rfl
@[simp] theorem commitBytes_srcAddr (out : List Byte) (s : State) :
    (commitBytes out s).srcAddr = s.srcAddr := rfl
@[simp] theorem commitBytes_src2Addr (out : List Byte) (s : State) :
    (commitBytes out s).src2Addr = s.src2Addr := rfl
@[simp] theorem commitBytes_dstAddr (out : List Byte) (s : State) :
    (commitBytes out s).dstAddr = s.dstAddr := rfl
@[simp] theorem commitBytes_dstCap (out : List Byte) (s : State) :
    (commitBytes out s).dstCap = s.dstCap := rfl
@[simp] theorem commitBytes_quality (out : List Byte) (s : State) :
    (commitBytes out s).quality = s.quality := rfl
@[simp] theorem commitBytes_outLen (out : List Byte) (s : State) :
    (commitBytes out s).outLen = BitVec.ofNat 32 out.length := rfl
@[simp] theorem commitBytes_psnrLo (out : List Byte) (s : State) :
    (commitBytes out s).psnrLo = s.psnrLo := rfl
@[simp] theorem commitBytes_psnrHi (out : List Byte) (s : State) :
    (commitBytes out s).psnrHi = s.psnrHi := rfl
@[simp] theorem commitBytes_latch (out : List Byte) (s : State) :
    (commitBytes out s).latch = s.latch := rfl
@[simp] theorem commitBytes_mem (out : List Byte) (s : State) :
    (commitBytes out s).mem = s.mem.writeBytes s.latch.dst.toNat out := rfl
@[simp] theorem commitBytes_draws (out : List Byte) (s : State) :
    (commitBytes out s).draws = s.draws := rfl
@[simp] theorem commitBytes_turns (out : List Byte) (s : State) :
    (commitBytes out s).turns = s.turns := rfl
@[simp] theorem commitBytes_reply (out : List Byte) (s : State) :
    (commitBytes out s).reply = s.reply := rfl

/-! ## commitPsnr -/

@[simp] theorem commitPsnr_ctrl (r : F64) (s : State) : (commitPsnr r s).ctrl = s.ctrl := rfl
@[simp] theorem commitPsnr_status (r : F64) (s : State) :
    (commitPsnr r s).status = s.status.succeeded := rfl
@[simp] theorem commitPsnr_cmd (r : F64) (s : State) : (commitPsnr r s).cmd = s.cmd := rfl
@[simp] theorem commitPsnr_len (r : F64) (s : State) : (commitPsnr r s).len = s.len := rfl
@[simp] theorem commitPsnr_srcAddr (r : F64) (s : State) :
    (commitPsnr r s).srcAddr = s.srcAddr := rfl
@[simp] theorem commitPsnr_src2Addr (r : F64) (s : State) :
    (commitPsnr r s).src2Addr = s.src2Addr := rfl
@[simp] theorem commitPsnr_dstAddr (r : F64) (s : State) :
    (commitPsnr r s).dstAddr = s.dstAddr := rfl
@[simp] theorem commitPsnr_dstCap (r : F64) (s : State) : (commitPsnr r s).dstCap = s.dstCap := rfl
@[simp] theorem commitPsnr_quality (r : F64) (s : State) :
    (commitPsnr r s).quality = s.quality := rfl
@[simp] theorem commitPsnr_outLen (r : F64) (s : State) : (commitPsnr r s).outLen = 0 := rfl
@[simp] theorem commitPsnr_psnrLo (r : F64) (s : State) :
    (commitPsnr r s).psnrLo = (canon r).extractLsb' 0 32 := rfl
@[simp] theorem commitPsnr_psnrHi (r : F64) (s : State) :
    (commitPsnr r s).psnrHi = (canon r).extractLsb' 32 32 := rfl
@[simp] theorem commitPsnr_latch (r : F64) (s : State) : (commitPsnr r s).latch = s.latch := rfl
@[simp] theorem commitPsnr_mem (r : F64) (s : State) : (commitPsnr r s).mem = s.mem := rfl
@[simp] theorem commitPsnr_draws (r : F64) (s : State) : (commitPsnr r s).draws = s.draws := rfl
@[simp] theorem commitPsnr_turns (r : F64) (s : State) : (commitPsnr r s).turns = s.turns := rfl
@[simp] theorem commitPsnr_reply (r : F64) (s : State) : (commitPsnr r s).reply = s.reply := rfl

/-! ## issue -/

@[simp] theorem issue_ctrl (v : Word) (s : State) : (issue v s).ctrl = s.ctrl := rfl
@[simp] theorem issue_status (v : Word) (s : State) : (issue v s).status = s.status.issued := rfl
@[simp] theorem issue_cmd (v : Word) (s : State) : (issue v s).cmd = v := rfl
@[simp] theorem issue_len (v : Word) (s : State) : (issue v s).len = s.len := rfl
@[simp] theorem issue_srcAddr (v : Word) (s : State) : (issue v s).srcAddr = s.srcAddr := rfl
@[simp] theorem issue_src2Addr (v : Word) (s : State) : (issue v s).src2Addr = s.src2Addr := rfl
@[simp] theorem issue_dstAddr (v : Word) (s : State) : (issue v s).dstAddr = s.dstAddr := rfl
@[simp] theorem issue_dstCap (v : Word) (s : State) : (issue v s).dstCap = s.dstCap := rfl
@[simp] theorem issue_quality (v : Word) (s : State) : (issue v s).quality = s.quality := rfl
@[simp] theorem issue_outLen (v : Word) (s : State) : (issue v s).outLen = s.outLen := rfl
@[simp] theorem issue_psnrLo (v : Word) (s : State) : (issue v s).psnrLo = s.psnrLo := rfl
@[simp] theorem issue_psnrHi (v : Word) (s : State) : (issue v s).psnrHi = s.psnrHi := rfl
@[simp] theorem issue_latch (v : Word) (s : State) :
    (issue v s).latch = { cmd := v, len := s.len, src := s.srcAddr, src2 := s.src2Addr, dst := s.dstAddr, cap := s.dstCap, q := s.quality } := rfl
@[simp] theorem issue_mem (v : Word) (s : State) : (issue v s).mem = s.mem := rfl
@[simp] theorem issue_draws (v : Word) (s : State) : (issue v s).draws = s.draws := rfl
@[simp] theorem issue_turns (v : Word) (s : State) : (issue v s).turns = s.turns := rfl
@[simp] theorem issue_reply (v : Word) (s : State) : (issue v s).reply = s.reply := rfl

/-! ## hostError -/

@[simp] theorem hostError_ctrl (s : State) : (hostError s).ctrl = s.ctrl := rfl
@[simp] theorem hostError_status (s : State) : (hostError s).status = s.status.withHerr := rfl
@[simp] theorem hostError_cmd (s : State) : (hostError s).cmd = s.cmd := rfl
@[simp] theorem hostError_len (s : State) : (hostError s).len = s.len := rfl
@[simp] theorem hostError_srcAddr (s : State) : (hostError s).srcAddr = s.srcAddr := rfl
@[simp] theorem hostError_src2Addr (s : State) : (hostError s).src2Addr = s.src2Addr := rfl
@[simp] theorem hostError_dstAddr (s : State) : (hostError s).dstAddr = s.dstAddr := rfl
@[simp] theorem hostError_dstCap (s : State) : (hostError s).dstCap = s.dstCap := rfl
@[simp] theorem hostError_quality (s : State) : (hostError s).quality = s.quality := rfl
@[simp] theorem hostError_outLen (s : State) : (hostError s).outLen = s.outLen := rfl
@[simp] theorem hostError_psnrLo (s : State) : (hostError s).psnrLo = s.psnrLo := rfl
@[simp] theorem hostError_psnrHi (s : State) : (hostError s).psnrHi = s.psnrHi := rfl
@[simp] theorem hostError_latch (s : State) : (hostError s).latch = s.latch := rfl
@[simp] theorem hostError_mem (s : State) : (hostError s).mem = s.mem := rfl
@[simp] theorem hostError_draws (s : State) : (hostError s).draws = s.draws := rfl
@[simp] theorem hostError_turns (s : State) : (hostError s).turns = s.turns := rfl
@[simp] theorem hostError_reply (s : State) : (hostError s).reply = s.reply := rfl

/-! ## withReply -/

@[simp] theorem withReply_ctrl (r : Option (BitVec 64)) (s : State) :
    (withReply r s).ctrl = s.ctrl := rfl
@[simp] theorem withReply_status (r : Option (BitVec 64)) (s : State) :
    (withReply r s).status = s.status := rfl
@[simp] theorem withReply_cmd (r : Option (BitVec 64)) (s : State) :
    (withReply r s).cmd = s.cmd := rfl
@[simp] theorem withReply_len (r : Option (BitVec 64)) (s : State) :
    (withReply r s).len = s.len := rfl
@[simp] theorem withReply_srcAddr (r : Option (BitVec 64)) (s : State) :
    (withReply r s).srcAddr = s.srcAddr := rfl
@[simp] theorem withReply_src2Addr (r : Option (BitVec 64)) (s : State) :
    (withReply r s).src2Addr = s.src2Addr := rfl
@[simp] theorem withReply_dstAddr (r : Option (BitVec 64)) (s : State) :
    (withReply r s).dstAddr = s.dstAddr := rfl
@[simp] theorem withReply_dstCap (r : Option (BitVec 64)) (s : State) :
    (withReply r s).dstCap = s.dstCap := rfl
@[simp] theorem withReply_quality (r : Option (BitVec 64)) (s : State) :
    (withReply r s).quality = s.quality := rfl
@[simp] theorem withReply_outLen (r : Option (BitVec 64)) (s : State) :
    (withReply r s).outLen = s.outLen := rfl
@[simp] theorem withReply_psnrLo (r : Option (BitVec 64)) (s : State) :
    (withReply r s).psnrLo = s.psnrLo := rfl
@[simp] theorem withReply_psnrHi (r : Option (BitVec 64)) (s : State) :
    (withReply r s).psnrHi = s.psnrHi := rfl
@[simp] theorem withReply_latch (r : Option (BitVec 64)) (s : State) :
    (withReply r s).latch = s.latch := rfl
@[simp] theorem withReply_mem (r : Option (BitVec 64)) (s : State) :
    (withReply r s).mem = s.mem := rfl
@[simp] theorem withReply_draws (r : Option (BitVec 64)) (s : State) :
    (withReply r s).draws = s.draws := rfl
@[simp] theorem withReply_turns (r : Option (BitVec 64)) (s : State) :
    (withReply r s).turns = s.turns := rfl
@[simp] theorem withReply_reply (r : Option (BitVec 64)) (s : State) :
    (withReply r s).reply = r := rfl

/-! ## dropTurn -/

@[simp] theorem dropTurn_ctrl (s : State) : (dropTurn s).ctrl = s.ctrl := rfl
@[simp] theorem dropTurn_status (s : State) : (dropTurn s).status = s.status := rfl
@[simp] theorem dropTurn_cmd (s : State) : (dropTurn s).cmd = s.cmd := rfl
@[simp] theorem dropTurn_len (s : State) : (dropTurn s).len = s.len := rfl
@[simp] theorem dropTurn_srcAddr (s : State) : (dropTurn s).srcAddr = s.srcAddr := rfl
@[simp] theorem dropTurn_src2Addr (s : State) : (dropTurn s).src2Addr = s.src2Addr := rfl
@[simp] theorem dropTurn_dstAddr (s : State) : (dropTurn s).dstAddr = s.dstAddr := rfl
@[simp] theorem dropTurn_dstCap (s : State) : (dropTurn s).dstCap = s.dstCap := rfl
@[simp] theorem dropTurn_quality (s : State) : (dropTurn s).quality = s.quality := rfl
@[simp] theorem dropTurn_outLen (s : State) : (dropTurn s).outLen = s.outLen := rfl
@[simp] theorem dropTurn_psnrLo (s : State) : (dropTurn s).psnrLo = s.psnrLo := rfl
@[simp] theorem dropTurn_psnrHi (s : State) : (dropTurn s).psnrHi = s.psnrHi := rfl
@[simp] theorem dropTurn_latch (s : State) : (dropTurn s).latch = s.latch := rfl
@[simp] theorem dropTurn_mem (s : State) : (dropTurn s).mem = s.mem := rfl
@[simp] theorem dropTurn_draws (s : State) : (dropTurn s).draws = s.draws := rfl
@[simp] theorem dropTurn_turns (s : State) : (dropTurn s).turns = s.turns.tail := rfl
@[simp] theorem dropTurn_reply (s : State) : (dropTurn s).reply = s.reply := rfl

/-! ## resetRegs -/

@[simp] theorem resetRegs_ctrl (s : State) :
    (resetRegs s).ctrl = { ie := false, heie := false } := rfl
@[simp] theorem resetRegs_status (s : State) :
    (resetRegs s).status = { busy := false, done := false, err := false, errcode := 0, herr := false } := rfl
@[simp] theorem resetRegs_cmd (s : State) : (resetRegs s).cmd = 0 := rfl
@[simp] theorem resetRegs_len (s : State) : (resetRegs s).len = 0 := rfl
@[simp] theorem resetRegs_srcAddr (s : State) : (resetRegs s).srcAddr = 0 := rfl
@[simp] theorem resetRegs_src2Addr (s : State) : (resetRegs s).src2Addr = 0 := rfl
@[simp] theorem resetRegs_dstAddr (s : State) : (resetRegs s).dstAddr = 0 := rfl
@[simp] theorem resetRegs_dstCap (s : State) : (resetRegs s).dstCap = 0 := rfl
@[simp] theorem resetRegs_quality (s : State) : (resetRegs s).quality = 0 := rfl
@[simp] theorem resetRegs_outLen (s : State) : (resetRegs s).outLen = 0 := rfl
@[simp] theorem resetRegs_psnrLo (s : State) : (resetRegs s).psnrLo = 0 := rfl
@[simp] theorem resetRegs_psnrHi (s : State) : (resetRegs s).psnrHi = 0 := rfl
@[simp] theorem resetRegs_latch (s : State) : (resetRegs s).latch = Latch.zero := rfl
@[simp] theorem resetRegs_mem (s : State) : (resetRegs s).mem = s.mem := rfl
@[simp] theorem resetRegs_draws (s : State) : (resetRegs s).draws = s.draws := rfl
@[simp] theorem resetRegs_turns (s : State) : (resetRegs s).turns = s.turns := rfl
@[simp] theorem resetRegs_reply (s : State) : (resetRegs s).reply = s.reply := rfl

/-! ## scrambleWindow -/

@[simp] theorem scrambleWindow_ctrl (s : State) : (scrambleWindow s).ctrl = s.ctrl := rfl
@[simp] theorem scrambleWindow_status (s : State) : (scrambleWindow s).status = s.status := rfl
@[simp] theorem scrambleWindow_cmd (s : State) : (scrambleWindow s).cmd = s.cmd := rfl
@[simp] theorem scrambleWindow_len (s : State) : (scrambleWindow s).len = s.len := rfl
@[simp] theorem scrambleWindow_srcAddr (s : State) : (scrambleWindow s).srcAddr = s.srcAddr := rfl
@[simp] theorem scrambleWindow_src2Addr (s : State) :
    (scrambleWindow s).src2Addr = s.src2Addr := rfl
@[simp] theorem scrambleWindow_dstAddr (s : State) : (scrambleWindow s).dstAddr = s.dstAddr := rfl
@[simp] theorem scrambleWindow_dstCap (s : State) : (scrambleWindow s).dstCap = s.dstCap := rfl
@[simp] theorem scrambleWindow_quality (s : State) : (scrambleWindow s).quality = s.quality := rfl
@[simp] theorem scrambleWindow_outLen (s : State) : (scrambleWindow s).outLen = s.outLen := rfl
@[simp] theorem scrambleWindow_psnrLo (s : State) : (scrambleWindow s).psnrLo = s.psnrLo := rfl
@[simp] theorem scrambleWindow_psnrHi (s : State) : (scrambleWindow s).psnrHi = s.psnrHi := rfl
@[simp] theorem scrambleWindow_latch (s : State) : (scrambleWindow s).latch = s.latch := rfl
@[simp] theorem scrambleWindow_mem (s : State) :
    (scrambleWindow s).mem = s.mem.writeBytes s.latch.dst.toNat (freeBytes s.draws (window s.latch) s.mem.size) := rfl
@[simp] theorem scrambleWindow_draws (s : State) : (scrambleWindow s).draws = s.draws + 1 := rfl
@[simp] theorem scrambleWindow_turns (s : State) : (scrambleWindow s).turns = s.turns := rfl
@[simp] theorem scrambleWindow_reply (s : State) : (scrambleWindow s).reply = s.reply := rfl

/-! ## hardReset -/

@[simp] theorem hardReset_ctrl (s : State) :
    (hardReset s).ctrl = { ie := false, heie := false } := rfl
@[simp] theorem hardReset_status (s : State) :
    (hardReset s).status = { busy := false, done := false, err := false, errcode := 0, herr := false } := rfl
@[simp] theorem hardReset_cmd (s : State) : (hardReset s).cmd = 0 := rfl
@[simp] theorem hardReset_len (s : State) : (hardReset s).len = 0 := rfl
@[simp] theorem hardReset_srcAddr (s : State) : (hardReset s).srcAddr = 0 := rfl
@[simp] theorem hardReset_src2Addr (s : State) : (hardReset s).src2Addr = 0 := rfl
@[simp] theorem hardReset_dstAddr (s : State) : (hardReset s).dstAddr = 0 := rfl
@[simp] theorem hardReset_dstCap (s : State) : (hardReset s).dstCap = 0 := rfl
@[simp] theorem hardReset_quality (s : State) : (hardReset s).quality = 0 := rfl
@[simp] theorem hardReset_outLen (s : State) : (hardReset s).outLen = 0 := rfl
@[simp] theorem hardReset_psnrLo (s : State) : (hardReset s).psnrLo = 0 := rfl
@[simp] theorem hardReset_psnrHi (s : State) : (hardReset s).psnrHi = 0 := rfl
@[simp] theorem hardReset_latch (s : State) : (hardReset s).latch = Latch.zero := rfl
@[simp] theorem hardReset_mem (s : State) :
    (hardReset s).mem = { s.mem with epoch := s.draws, cells := [] } := rfl
@[simp] theorem hardReset_draws (s : State) : (hardReset s).draws = s.draws + 1 := rfl
@[simp] theorem hardReset_turns (s : State) : (hardReset s).turns = s.turns := rfl
@[simp] theorem hardReset_reply (s : State) : (hardReset s).reply = none := rfl

/-! ## softReset -/

@[simp] theorem softReset_ctrl (s : State) : (softReset s).ctrl = { ie := false, heie := false } := rfl
@[simp] theorem softReset_status (s : State) : (softReset s).status = { busy := false, done := false, err := false, errcode := 0, herr := false } := rfl
@[simp] theorem softReset_cmd (s : State) : (softReset s).cmd = 0 := rfl
@[simp] theorem softReset_len (s : State) : (softReset s).len = 0 := rfl
@[simp] theorem softReset_srcAddr (s : State) : (softReset s).srcAddr = 0 := rfl
@[simp] theorem softReset_src2Addr (s : State) : (softReset s).src2Addr = 0 := rfl
@[simp] theorem softReset_dstAddr (s : State) : (softReset s).dstAddr = 0 := rfl
@[simp] theorem softReset_dstCap (s : State) : (softReset s).dstCap = 0 := rfl
@[simp] theorem softReset_quality (s : State) : (softReset s).quality = 0 := rfl
@[simp] theorem softReset_outLen (s : State) : (softReset s).outLen = 0 := rfl
@[simp] theorem softReset_psnrLo (s : State) : (softReset s).psnrLo = 0 := rfl
@[simp] theorem softReset_psnrHi (s : State) : (softReset s).psnrHi = 0 := rfl
@[simp] theorem softReset_latch (s : State) : (softReset s).latch = Latch.zero := rfl
@[simp] theorem softReset_turns (s : State) : (softReset s).turns = s.turns := by
  unfold softReset; split <;> rfl
@[simp] theorem softReset_reply (s : State) : (softReset s).reply = s.reply := by
  unfold softReset; split <;> rfl

/-- A soft reset while BUSY = 0 changes no MEM byte (70_reset_and_hazards.md R232). -/
theorem softReset_mem_idle (s : State) (h : s.status.busy = false) : (softReset s).mem = s.mem := by
  simp [softReset, h]

/-- A soft reset while BUSY = 1 leaves the scrambled window (R233). -/
theorem softReset_mem_busy (s : State) (h : s.status.busy = true) :
    (softReset s).mem = (scrambleWindow s).mem := by
  simp [softReset, h]

theorem softReset_draws_idle (s : State) (h : s.status.busy = false) :
    (softReset s).draws = s.draws := by
  simp [softReset, h]

theorem softReset_draws_busy (s : State) (h : s.status.busy = true) :
    (softReset s).draws = s.draws + 1 := by
  simp [softReset, h]

/-! ## STATUS -/

@[simp] theorem Status.issued_busy (t : Status) : (t.issued).busy = true := rfl
@[simp] theorem Status.issued_done (t : Status) : (t.issued).done = false := rfl
@[simp] theorem Status.issued_err (t : Status) : (t.issued).err = false := rfl
@[simp] theorem Status.issued_errcode (t : Status) : (t.issued).errcode = 0 := rfl
@[simp] theorem Status.issued_herr (t : Status) : (t.issued).herr = t.herr := rfl

@[simp] theorem Status.failed_busy (e : CmdError) (t : Status) : (t.failed e).busy = false := rfl
@[simp] theorem Status.failed_done (e : CmdError) (t : Status) : (t.failed e).done = true := rfl
@[simp] theorem Status.failed_err (e : CmdError) (t : Status) : (t.failed e).err = true := rfl
@[simp] theorem Status.failed_errcode (e : CmdError) (t : Status) : (t.failed e).errcode = e.code := rfl
@[simp] theorem Status.failed_herr (e : CmdError) (t : Status) : (t.failed e).herr = t.herr := rfl

@[simp] theorem Status.succeeded_busy (t : Status) : (t.succeeded).busy = false := rfl
@[simp] theorem Status.succeeded_done (t : Status) : (t.succeeded).done = true := rfl
@[simp] theorem Status.succeeded_err (t : Status) : (t.succeeded).err = false := rfl
@[simp] theorem Status.succeeded_errcode (t : Status) : (t.succeeded).errcode = 0 := rfl
@[simp] theorem Status.succeeded_herr (t : Status) : (t.succeeded).herr = t.herr := rfl

@[simp] theorem Status.withHerr_busy (t : Status) : (t.withHerr).busy = t.busy := rfl
@[simp] theorem Status.withHerr_done (t : Status) : (t.withHerr).done = t.done := rfl
@[simp] theorem Status.withHerr_err (t : Status) : (t.withHerr).err = t.err := rfl
@[simp] theorem Status.withHerr_errcode (t : Status) : (t.withHerr).errcode = t.errcode := rfl
@[simp] theorem Status.withHerr_herr (t : Status) : (t.withHerr).herr = true := rfl

@[simp] theorem Status.clear_busy (v : Word) (t : Status) : (t.clear v).busy = t.busy := rfl
@[simp] theorem Status.clear_done (v : Word) (t : Status) : (t.clear v).done = (t.done && !v.getLsbD 1) := rfl
@[simp] theorem Status.clear_err (v : Word) (t : Status) : (t.clear v).err = (t.err && !v.getLsbD 2) := rfl
@[simp] theorem Status.clear_errcode (v : Word) (t : Status) : (t.clear v).errcode = if v.getLsbD 2 then 0 else t.errcode := rfl
@[simp] theorem Status.clear_herr (v : Word) (t : Status) : (t.clear v).herr = (t.herr && !v.getLsbD 8) := rfl

end Sys2Proof.Machine
end

