-- ==== Sys2Proof/Laws/Completion.lean ====
section
/-! SUPPORT. What a completion can do, said once (40_command.md R104, R112, R113). -/

namespace Sys2Proof.Machine

/-! ## Regions -/

theorem inRange_iff (size : Nat) (r : Region) :
    r.inRange size = true ↔ RegionIn size r.base r.len := by
  simp [Region.inRange, RegionIn]

/-- The arithmetic test of two regions, as a fact about their addresses. -/
theorem disjoint_iff (r t : Region) :
    r.disjoint t = true ↔ RegionsApart r.base r.len t.base t.len := by
  simp only [Region.disjoint, Bool.or_eq_true, beq_iff_eq, decide_eq_true_eq, RegionsApart, InRegion]
  constructor
  · rintro h a ⟨h1, h2⟩
    omega
  · intro h
    by_contra hc
    exact h (max r.base t.base) (by omega)

/-! ## The checks -/

/-- The shared checks all pass exactly when every address is aligned, every region is in range and
the window meets no source. -/
theorem memoryError_none (o : Operands) (L : Latch) (size : Nat) :
    memoryError o L size = none ↔
      (∀ a ∈ o.aligned, a % 8 = 0) ∧
      (∀ r ∈ o.sources, RegionIn size r.base r.len) ∧
      (o.writesMem = true → RegionIn size L.dst.toNat L.cap.toNat) ∧
      (o.writesMem = true → ∀ r ∈ o.sources,
        RegionsApart L.dst.toNat L.cap.toNat r.base r.len) := by
  have hw : (window L).inRange size = true ↔ RegionIn size L.dst.toNat L.cap.toNat :=
    inRange_iff size (window L)
  have hd : ∀ r, (window L).disjoint r = true ↔
      RegionsApart L.dst.toNat L.cap.toNat r.base r.len := fun r => disjoint_iff (window L) r
  unfold memoryError
  split
  · rename_i h
    simp only [List.any_eq_true, bne_iff_ne] at h
    obtain ⟨a, ha, h⟩ := h
    simp only [reduceCtorEq, false_iff]
    exact fun hh => h (hh.1 a ha)
  · rename_i h1
    simp only [Bool.not_eq_true, List.any_eq_false, bne_iff_ne, ne_eq, Decidable.not_not] at h1
    split
    · rename_i h
      simp only [List.any_eq_true, Bool.not_eq_true'] at h
      obtain ⟨r, hr, h⟩ := h
      simp only [reduceCtorEq, false_iff]
      rintro ⟨-, hh, -⟩
      exact absurd ((inRange_iff size r).2 (hh r hr)) (by simp [h])
    · rename_i h2
      simp only [Bool.not_eq_true, List.any_eq_false, Bool.not_eq_true', Bool.not_eq_false] at h2
      split
      · rename_i h
        simp only [Bool.and_eq_true, Bool.not_eq_true'] at h
        simp only [reduceCtorEq, false_iff]
        rintro ⟨-, -, hh, -⟩
        exact absurd (hw.2 (hh h.1)) (by simp [h.2])
      · rename_i h3
        simp only [Bool.and_eq_true, Bool.not_eq_true', not_and, Bool.not_eq_false] at h3
        split
        · rename_i h
          simp only [Bool.and_eq_true, List.any_eq_true, Bool.not_eq_true'] at h
          obtain ⟨hm, r, hr, h⟩ := h
          simp only [reduceCtorEq, false_iff]
          rintro ⟨-, -, -, hh⟩
          exact absurd ((hd r).2 (hh hm r hr)) (by simp [h])
        · rename_i h4
          simp only [Bool.and_eq_true, List.any_eq_true, Bool.not_eq_true', not_and, not_exists,
            Bool.not_eq_false] at h4
          simp only [true_iff]
          exact ⟨h1, fun r hr => (inRange_iff size r).1 (h2 r hr), fun hm => hw.1 (h3 hm),
            fun hm r hr => (hd r).1 (h4 hm r hr)⟩

/-- The three errors the shared checks can report. -/
theorem memoryError_some {o : Operands} {L : Latch} {size : Nat} {e : CmdError}
    (h : memoryError o L size = some e) : e = .align ∨ e = .range ∨ e = .overlap := by
  unfold memoryError at h
  split at h
  · simp_all
  · split at h
    · simp_all
    · split at h
      · simp_all
      · split at h
        · simp_all
        · simp at h

/-- RANGE means that a source region, or the window of a command that writes MEM, is not in range. -/
theorem memoryError_range {o : Operands} {L : Latch} {size : Nat}
    (h : memoryError o L size = some .range) :
    (∃ r ∈ o.sources, ¬ RegionIn size r.base r.len) ∨
      (o.writesMem = true ∧ ¬ RegionIn size L.dst.toNat L.cap.toNat) := by
  by_contra hc
  simp only [not_or, not_exists, not_and, not_not] at hc
  have h1 : o.sources.any (fun r => !r.inRange size) = false := by
    simp only [List.any_eq_false, Bool.not_eq_true', Bool.not_eq_false]
    exact fun r hr => (inRange_iff size r).2 (hc.1 r hr)
  have h2 : (o.writesMem && !(window L).inRange size) = false := by
    cases hw : o.writesMem with
    | false => rfl
    | true => simp [(inRange_iff size (window L)).2 (hc.2 hw)]
  unfold memoryError at h
  rw [h1, h2] at h
  split at h <;> simp at h

/-! ## Completions -/

/-- A command that writes MEM ends in one of three ways. -/
theorem completeBytes_cases (o : Operands) (f : Memory → List Byte) (s : State) :
    (∃ e, memoryError o s.latch s.mem.size = some e ∧ completeBytes o f s = raise e s) ∨
    (memoryError o s.latch s.mem.size = none ∧ s.latch.cap.toNat < (f s.mem).length ∧
      completeBytes o f s = raise .capacity s) ∨
    (memoryError o s.latch s.mem.size = none ∧ (f s.mem).length ≤ s.latch.cap.toNat ∧
      completeBytes o f s = commitBytes (f s.mem) s) := by
  unfold completeBytes
  split
  · rename_i e h
    exact .inl ⟨e, h, rfl⟩
  · rename_i h
    unfold capacityOrCommit
    split
    · rename_i hc
      exact .inr (.inl ⟨h, hc, rfl⟩)
    · rename_i hc
      exact .inr (.inr ⟨h, by omega, rfl⟩)

theorem completeBytes_error {o : Operands} {f : Memory → List Byte} {s : State} {e : CmdError}
    (h : memoryError o s.latch s.mem.size = some e) : completeBytes o f s = raise e s := by
  simp [completeBytes, h]

theorem completeBytes_commit {o : Operands} {f : Memory → List Byte} {s : State}
    (h : memoryError o s.latch s.mem.size = none) (hc : (f s.mem).length ≤ s.latch.cap.toNat) :
    completeBytes o f s = commitBytes (f s.mem) s := by
  simp [completeBytes, h, capacityOrCommit, Nat.not_lt.2 hc]

theorem completeBytes_capacity {o : Operands} {f : Memory → List Byte} {s : State}
    (h : memoryError o s.latch s.mem.size = none) (hc : s.latch.cap.toNat < (f s.mem).length) :
    completeBytes o f s = raise .capacity s := by
  simp [completeBytes, h, capacityOrCommit, hc]

theorem raise_frame (e : CmdError) (s : State) : CompletionFrame s (raise e s) := by
  simp [CompletionFrame]

theorem commitBytes_frame (out : List Byte) (s : State) : CompletionFrame s (commitBytes out s) := by
  simp [CompletionFrame]

theorem commitPsnr_frame (r : F64) (s : State) : CompletionFrame s (commitPsnr r s) := by
  simp [CompletionFrame]

theorem raise_endsInError (e : CmdError) (s : State) : EndsInError e.code s (raise e s) := rfl

/-- A committed output stays inside the window, which lies inside MEM. -/
theorem commitBytes_writes {s : State} {out : List Byte}
    (hw : RegionIn s.mem.size s.latch.dst.toNat s.latch.cap.toNat)
    (hc : out.length ≤ s.latch.cap.toNat) :
    (∀ k (h : k < out.length), (commitBytes out s).mem.read (s.latch.dst.toNat + k) = out[k]) ∧
    (∀ a, ¬ InRegion s.latch.dst.toNat out.length a →
      (commitBytes out s).mem.read a = s.mem.read a) ∧
    (commitBytes out s).outLen.toNat = out.length := by
  have hcap := s.latch.cap.isLt
  refine ⟨fun k h => ?_, fun a ha => ?_, ?_⟩
  · rw [commitBytes_mem]
    exact read_writeBytes_inside _ _ _ _ h (by unfold RegionIn at hw; omega)
  · rw [commitBytes_mem]
    exact read_writeBytes_outside _ _ _ _ (by unfold InRegion at ha; omega)
  · rw [commitBytes_outLen, BitVec.toNat_ofNat]
    omega

/-- The operands of a command that writes MEM (R103): every command but PSNR. -/
def operandsOf (i : Instr) (L : Latch) : Operands :=
  match i with
  | .rleEnc => rleEncOperands L
  | .rleDec => rleDecOperands L
  | .dct => dctOperands L
  | .idct => idctOperands L
  | .idctT => idctOperands L
  | .quant => quantOperands L
  | .psnr => psnrOperands L

/-- What a command that writes MEM stores when it succeeds (R103). -/
def outputOf (i : Instr) (s : State) : List Byte :=
  match i with
  | .rleEnc => rleEnc (s.mem.readBytes s.latch.src.toNat s.latch.len.toNat)
  | .rleDec => rleDec (s.mem.readBytes s.latch.src.toNat s.latch.len.toNat)
  | .dct => f64sBytes (dct Config.cosFn (s.mem.readBytes s.latch.src.toNat s.latch.len.toNat))
  | .idct => idct Config.cosFn false (s.mem.readF64s s.latch.src.toNat s.latch.len.toNat)
  | .idctT => idct Config.cosFn true (s.mem.readF64s s.latch.src.toNat s.latch.len.toNat)
  | .quant => f64sBytes (quant (quality s.latch)
      (s.mem.readF64s s.latch.src.toNat s.latch.len.toNat))
  | .psnr => []

/-- The result of a PSNR that succeeds (41_psnr.md R130). -/
def psnrOf (s : State) : F64 :=
  psnr Config.log10Fn (s.mem.readBytes s.latch.src.toNat s.latch.len.toNat)
    (s.mem.readBytes s.latch.src2.toNat s.latch.len.toNat)

/-- Everything a completion can do: one error and nothing else, the output stored, or the PSNR
result. No command stops the machine. -/
theorem exec_cases (i : Instr) (s : State) :
    (∃ e, exec i s = .next (raise e s)) ∨
    (i ≠ .psnr ∧ memoryError (operandsOf i s.latch) s.latch s.mem.size = none ∧
      (operandsOf i s.latch).writesMem = true ∧
      (outputOf i s).length ≤ s.latch.cap.toNat ∧
      exec i s = .next (commitBytes (outputOf i s) s)) ∨
    (i = .psnr ∧ memoryError (psnrOperands s.latch) s.latch s.mem.size = none ∧
      exec i s = .next (commitPsnr (psnrOf s) s)) := by
  have key : ∀ (o : Operands) (f : Memory → List Byte),
      (∃ e, Host.Outcome.next (completeBytes o f s) =
        (Host.Outcome.next (raise e s) : Host.Outcome State Fault Refusal)) ∨
      (memoryError o s.latch s.mem.size = none ∧ (f s.mem).length ≤ s.latch.cap.toNat ∧
        Host.Outcome.next (completeBytes o f s) =
          (Host.Outcome.next (commitBytes (f s.mem) s) : Host.Outcome State Fault Refusal)) := by
    intro o f
    rcases completeBytes_cases o f s with ⟨e, -, h⟩ | ⟨-, -, h⟩ | ⟨h1, h2, h⟩
    · exact .inl ⟨e, by rw [h]⟩
    · exact .inl ⟨.capacity, by rw [h]⟩
    · exact .inr ⟨h1, h2, by rw [h]⟩
  cases i with
  | rleEnc =>
    rcases key (rleEncOperands s.latch) (fun m => rleEnc (m.readBytes s.latch.src.toNat s.latch.len.toNat)) with h | h
    · exact .inl h
    · exact .inr (.inl ⟨by decide, h.1, rfl, h.2.1, h.2.2⟩)
  | rleDec =>
    simp only [exec, execRleDec]
    split
    · exact .inl ⟨.malformedStream, rfl⟩
    · rcases key (rleDecOperands s.latch) (fun m => rleDec (m.readBytes s.latch.src.toNat s.latch.len.toNat)) with h | h
      · exact .inl h
      · exact .inr (.inl ⟨by decide, h.1, rfl, h.2.1, h.2.2⟩)
  | dct =>
    rcases key (dctOperands s.latch) (fun m => f64sBytes (dct Config.cosFn (m.readBytes s.latch.src.toNat s.latch.len.toNat))) with h | h
    · exact .inl h
    · exact .inr (.inl ⟨by decide, h.1, rfl, h.2.1, h.2.2⟩)
  | idct =>
    rcases key (idctOperands s.latch) (fun m => idct Config.cosFn false (m.readF64s s.latch.src.toNat s.latch.len.toNat)) with h | h
    · exact .inl h
    · exact .inr (.inl ⟨by decide, h.1, rfl, h.2.1, h.2.2⟩)
  | idctT =>
    rcases key (idctOperands s.latch) (fun m => idct Config.cosFn true (m.readF64s s.latch.src.toNat s.latch.len.toNat)) with h | h
    · exact .inl h
    · exact .inr (.inl ⟨by decide, h.1, rfl, h.2.1, h.2.2⟩)
  | quant =>
    simp only [exec, execQuant]
    split
    · exact .inl ⟨.invalidParam, rfl⟩
    · rcases key (quantOperands s.latch) (fun m => f64sBytes (quant (quality s.latch) (m.readF64s s.latch.src.toNat s.latch.len.toNat))) with h | h
      · exact .inl h
      · exact .inr (.inl ⟨by decide, h.1, rfl, h.2.1, h.2.2⟩)
  | psnr =>
    simp only [exec, execPsnr]
    split
    · rename_i e h
      exact .inl ⟨e, rfl⟩
    · rename_i h
      exact .inr (.inr ⟨trivial, h, rfl⟩)

/-- Why a completion ends in error: the check of its own that QUANT or RLE.DEC makes first, the shared
checks, or an output longer than the window (R104). -/
theorem exec_error_cases {i : Instr} {s t : State} (h : exec i s = .next t)
    (he : t.status.errcode ≠ 0) :
    ∃ e, t = raise e s ∧
      ((e = .invalidParam ∧ i = .quant ∧ quality s.latch ≤ 0) ∨
        (e = .malformedStream ∧ i = .rleDec ∧ s.latch.len.toNat % 2 = 1) ∨
        memoryError (operandsOf i s.latch) s.latch s.mem.size = some e ∨
        (e = .capacity ∧ i ≠ .psnr ∧ s.latch.cap.toNat < (outputOf i s).length)) := by
  have key : ∀ (o : Operands) (f : Memory → List Byte), t = completeBytes o f s →
      ∃ e, t = raise e s ∧ (memoryError o s.latch s.mem.size = some e ∨
        (e = .capacity ∧ s.latch.cap.toNat < (f s.mem).length)) := by
    intro o f ht
    rcases completeBytes_cases o f s with ⟨e, h1, h2⟩ | ⟨-, h1, h2⟩ | ⟨-, -, h2⟩
    · exact ⟨e, ht.trans h2, .inl h1⟩
    · exact ⟨.capacity, ht.trans h2, .inr ⟨rfl, h1⟩⟩
    · rw [ht, h2] at he
      exact absurd rfl he
  have wrap : i ≠ .psnr → (∃ e, t = raise e s ∧
      (memoryError (operandsOf i s.latch) s.latch s.mem.size = some e ∨
        (e = .capacity ∧ s.latch.cap.toNat < (outputOf i s).length))) →
      ∃ e, t = raise e s ∧
      ((e = .invalidParam ∧ i = .quant ∧ quality s.latch ≤ 0) ∨
        (e = .malformedStream ∧ i = .rleDec ∧ s.latch.len.toNat % 2 = 1) ∨
        memoryError (operandsOf i s.latch) s.latch s.mem.size = some e ∨
        (e = .capacity ∧ i ≠ .psnr ∧ s.latch.cap.toNat < (outputOf i s).length)) := by
    rintro hp ⟨e, ht, hm | ⟨h1, h2⟩⟩
    · exact ⟨e, ht, .inr (.inr (.inl hm))⟩
    · exact ⟨e, ht, .inr (.inr (.inr ⟨h1, hp, h2⟩))⟩
  cases i with
  | rleEnc => exact wrap (by decide) (key _ _ (Host.Outcome.next.inj h).symm)
  | dct => exact wrap (by decide) (key _ _ (Host.Outcome.next.inj h).symm)
  | idct => exact wrap (by decide) (key _ _ (Host.Outcome.next.inj h).symm)
  | idctT => exact wrap (by decide) (key _ _ (Host.Outcome.next.inj h).symm)
  | rleDec =>
    simp only [exec, execRleDec] at h
    split at h
    · rename_i hodd
      exact ⟨_, (Host.Outcome.next.inj h).symm, .inr (.inl ⟨rfl, rfl, hodd⟩)⟩
    · exact wrap (by decide) (key _ _ (Host.Outcome.next.inj h).symm)
  | quant =>
    simp only [exec, execQuant] at h
    split at h
    · rename_i hq
      exact ⟨_, (Host.Outcome.next.inj h).symm, .inl ⟨rfl, rfl, hq⟩⟩
    · exact wrap (by decide) (key _ _ (Host.Outcome.next.inj h).symm)
  | psnr =>
    simp only [exec, execPsnr] at h
    split at h
    · rename_i e hm
      exact ⟨e, (Host.Outcome.next.inj h).symm, .inr (.inr (.inl hm))⟩
    · obtain rfl := Host.Outcome.next.inj h
      exact absurd rfl he

/-- A completion changes only what 40_command.md R112 and R113 name, and BUSY falls. -/
theorem exec_frame {i : Instr} {s t : State} (h : exec i s = .next t) :
    CompletionFrame s t ∧ t.status.busy = false ∧ t.status.done = true := by
  rcases exec_cases i s with ⟨e, he⟩ | ⟨-, -, -, -, he⟩ | ⟨-, -, he⟩ <;>
    obtain rfl := Host.Outcome.next.inj (he.symm.trans h)
  · exact ⟨raise_frame e s, rfl, rfl⟩
  · exact ⟨commitBytes_frame _ s, rfl, rfl⟩
  · exact ⟨commitPsnr_frame _ s, rfl, rfl⟩

end Sys2Proof.Machine
end

