-- ==== Sys2Proof/Laws/Decode.lean ====
section
/-! SUPPORT. The fields of a word and the bytes of a word are the word (30_encoding.md R80). -/

namespace Sys2Proof

/-- The bits of a packed word (R80): OP, then RND, then RSV. -/
theorem cmdPack_getLsbD (c : CmdWord) (i : Nat) :
    (cmdPack c).getLsbD i =
      if i < 5 then (if i < 4 then c.op.getLsbD i else c.rnd) else c.rsv.getLsbD (i - 5) := by
  have h : (cmdPack c).getLsbD i = (c.rsv ++ (BitVec.ofBool c.rnd ++ c.op)).getLsbD i := rfl
  rw [h, BitVec.getLsbD_append, BitVec.getLsbD_append]
  by_cases h4 : i < 4
  · simp [h4, show i < 5 by omega]
  · by_cases h5 : i < 5
    · have : i = 4 := by omega
      subst this
      simp
    · simp [h5]

theorem cmdPack_fields (w : Word) : cmdPack (cmdFields w) = w := by
  apply BitVec.eq_of_getLsbD_eq
  intro i hi
  rw [cmdPack_getLsbD]
  simp only [cmdFields, BitVec.getLsbD_extractLsb']
  by_cases h4 : i < 4
  · simp [h4, show i < 5 by omega]
  · by_cases h5 : i < 5
    · simp [show i = 4 by omega]
    · simp [h5, show i - 5 < 27 by omega, show 5 + (i - 5) = i by omega]

theorem cmdFields_pack (c : CmdWord) : cmdFields (cmdPack c) = c := by
  obtain ⟨op, rnd, rsv⟩ := c
  simp only [cmdFields, CmdWord.mk.injEq]
  refine ⟨?_, ?_, ?_⟩
  · apply BitVec.eq_of_getLsbD_eq
    intro i hi
    rw [BitVec.getLsbD_extractLsb', cmdPack_getLsbD]
    simp [hi, show i < 5 by omega]
  · rw [cmdPack_getLsbD]
    simp
  · apply BitVec.eq_of_getLsbD_eq
    intro i hi
    rw [BitVec.getLsbD_extractLsb', cmdPack_getLsbD]
    simp [hi, show ¬ 5 + i < 5 by omega]

/-- The decoder reads a word's own bytes as the word. -/
theorem decodeBytes_wordBytes (w : Word) : decodeBytes (wordBytes w) = decode w := by
  have : (w.extractLsb' 24 8 ++
      (w.extractLsb' 16 8 ++ (w.extractLsb' 8 8 ++ w.extractLsb' 0 8))) = w := by
    apply BitVec.eq_of_getLsbD_eq
    intro i hi
    simp only [BitVec.getLsbD_append, BitVec.getLsbD_extractLsb']
    by_cases h1 : i < 8
    · simp [h1, show i < 8 + 8 by omega, show i < 8 + (8 + 8) by omega]
    · by_cases h2 : i < 8 + 8
      · simp [h1, h2, show i < 8 + (8 + 8) by omega, show i - 8 < 8 by omega, show 8 + (i - 8) = i by omega]
      · by_cases h3 : i < 8 + (8 + 8)
        · simp [h2, h3, show i - (8 + 8) < 8 by omega, show 16 + (i - (8 + 8)) = i by omega]
        · simp [h3, show i - (8 + (8 + 8)) < 8 by omega, show 24 + (i - (8 + (8 + 8))) = i by omega]
  simp only [wordBytes, decodeBytes]
  exact congrArg decode this

end Sys2Proof
end

