-- ==== Sys2Proof/Laws/Float.lean ====
section
/-! SUPPORT. The parts of a binary64 pattern, the two roundings, and which values they leave exact
(00_scope.md R10, R11). -/

namespace Sys2Proof.Machine

/-! ## Patterns -/

/-- The magnitude that 63 bits below the sign stand for, in units of 2^-1074. -/
def magOfBits (b : Nat) : Nat :=
  if b / 2 ^ 52 = 0 then b % 2 ^ 52 else (2 ^ 52 + b % 2 ^ 52) * 2 ^ (b / 2 ^ 52 - 1)

theorem fpack_toNat (n : Bool) {b : Nat} (h : b < 2 ^ 63) :
    (fpack n b).toNat = (if n then 2 ^ 63 else 0) + b := by
  unfold fpack
  rw [BitVec.toNat_ofNat]
  cases n <;> simp <;> omega

@[simp] theorem fsign_fpack (n : Bool) {b : Nat} (h : b < 2 ^ 63) : fsign (fpack n b) = n := by
  unfold fsign
  rw [BitVec.msb_eq_decide, fpack_toNat n h]
  cases n <;> simp <;> omega

theorem fexp_fpack (n : Bool) {b : Nat} (h : b < 2 ^ 63) : fexp (fpack n b) = b / 2 ^ 52 := by
  unfold fexp
  rw [fpack_toNat n h]
  cases n <;> simp <;> omega

theorem ffrac_fpack (n : Bool) {b : Nat} (h : b < 2 ^ 63) : ffrac (fpack n b) = b % 2 ^ 52 := by
  unfold ffrac
  rw [fpack_toNat n h]
  cases n <;> simp <;> omega

theorem fmag_fpack (n : Bool) {b : Nat} (h : b < 2 ^ 63) : fmag (fpack n b) = magOfBits b := by
  unfold fmag magOfBits
  rw [fexp_fpack n h, ffrac_fpack n h]

/-- Every pattern is its sign and the 63 bits below it. -/
theorem fpack_parts (x : F64) : fpack (fsign x) (fexp x * 2 ^ 52 + ffrac x) = x := by
  have hx := x.isLt
  have hb : fexp x * 2 ^ 52 + ffrac x < 2 ^ 63 := by unfold fexp ffrac; omega
  apply BitVec.eq_of_toNat_eq
  rw [fpack_toNat _ hb]
  unfold fsign fexp ffrac
  rw [BitVec.msb_eq_decide]
  by_cases h : 2 ^ 63 ≤ x.toNat
  · simp only [show (2 ^ (64 - 1) : Nat) = 2 ^ 63 by norm_num, h, decide_true, if_true]
    omega
  · simp only [show (2 ^ (64 - 1) : Nat) = 2 ^ 63 by norm_num, h, decide_false]
    simp
    omega

theorem fexp_lt (x : F64) : fexp x < 2 ^ 11 := Nat.mod_lt _ (by norm_num)

theorem ffrac_lt (x : F64) : ffrac x < 2 ^ 52 := Nat.mod_lt _ (by norm_num)

theorem isFinite_iff (x : F64) : isFinite x = true ↔ fexp x < 2047 := by
  have := fexp_lt x
  simp only [isFinite, bne_iff_ne]
  omega

/-- A datum is NaN, infinite or finite, and only one of the three. -/
theorem isNaN_of_finite {x : F64} (h : isFinite x = true) : isNaN x = false := by
  rw [isFinite_iff] at h
  simp [isNaN, show fexp x ≠ 2047 by omega]

theorem isInf_of_finite {x : F64} (h : isFinite x = true) : isInf x = false := by
  rw [isFinite_iff] at h
  simp [isInf, show fexp x ≠ 2047 by omega]

theorem isFinite_of_inf {x : F64} (h : isInf x = true) : isFinite x = false := by
  simp only [isInf, Bool.and_eq_true, beq_iff_eq] at h
  simp [isFinite, h.1]

theorem isNaN_of_inf {x : F64} (h : isInf x = true) : isNaN x = false := by
  simp only [isInf, Bool.and_eq_true, beq_iff_eq] at h
  simp [isNaN, h.2]

/-- The magnitude of a finite datum as significand and exponent. -/
theorem fmag_parts {x : F64} (h : isFinite x = true) :
    ∃ m e, m < 2 ^ 53 ∧ e ≤ 2045 ∧ (e = 0 ∨ 2 ^ 52 ≤ m) ∧ fmag x = m * 2 ^ e ∧
      fexp x * 2 ^ 52 + ffrac x = e * 2 ^ 52 + m := by
  rw [isFinite_iff] at h
  have hf := ffrac_lt x
  unfold fmag
  by_cases h0 : fexp x = 0
  · exact ⟨ffrac x, 0, by omega, by omega, .inl rfl, by simp [h0], by simp [h0]⟩
  · refine ⟨2 ^ 52 + ffrac x, fexp x - 1, by omega, by omega, .inr (by omega), by simp [h0], ?_⟩
    obtain ⟨k, hk⟩ : ∃ k, fexp x = k + 1 := ⟨fexp x - 1, by omega⟩
    rw [hk]
    simp
    ring

/-! ## Rounding to an integer -/

/-- `divNearestEven` is within half a unit of the exact quotient, and even on a tie. -/
theorem divNearestEven_spec (num : Nat) {den : Nat} (h : 0 < den) :
    2 * (divNearestEven num den * den) ≤ 2 * num + den ∧
    2 * num ≤ 2 * (divNearestEven num den * den) + den ∧
    ((2 * (divNearestEven num den * den) = 2 * num + den ∨
      2 * num = 2 * (divNearestEven num den * den) + den) → divNearestEven num den % 2 = 0) := by
  have hm := Nat.div_add_mod num den
  have hl := Nat.mod_lt num h
  rw [Nat.mul_comm] at hm
  unfold divNearestEven
  generalize num / den = q at *
  generalize num % den = r at *
  split
  · rename_i hc
    have e : (q + 1) * den = q * den + den := by ring
    rw [e]
    omega
  · omega

/-- An exact quotient is its own rounding. -/
theorem divNearestEven_exact (m : Nat) {den : Nat} (h : 0 < den) :
    divNearestEven (m * den) den = m := by
  unfold divNearestEven
  rw [Nat.mul_mod_left, Nat.mul_div_cancel _ h]
  simp
  omega

/-! ## The shift of a quotient -/

/-- What the shift of a quotient says of its size. -/
theorem roundShift_spec (num den : Nat) :
    (roundShift num den = 0 ∧ num / den < 2 ^ 53) ∨
    (0 < roundShift num den ∧ 2 ^ (roundShift num den + 52) ≤ num / den ∧
      num / den < 2 ^ (roundShift num den + 53)) := by
  unfold roundShift
  split
  · rename_i h
    exact .inl ⟨rfl, h⟩
  · rename_i h
    have h0 : num / den ≠ 0 := by
      intro h'
      rw [h'] at h
      norm_num at h
    have hlog : 53 ≤ Nat.log2 (num / den) := (Nat.le_log2 h0).2 (by omega)
    refine .inr ⟨by omega, ?_, ?_⟩
    · rw [show Nat.log2 (num / den) - 52 + 52 = Nat.log2 (num / den) by omega]
      exact Nat.log2_self_le h0
    · rw [show Nat.log2 (num / den) - 52 + 53 = Nat.log2 (num / den) + 1 by omega]
      exact Nat.lt_log2_self

/-- The rounded significand: at most 2^53, and at least 2^52 unless nothing was shifted out. -/
theorem significand_bounds (num : Nat) {den : Nat} (h : 0 < den) :
    divNearestEven num (den * 2 ^ roundShift num den) ≤ 2 ^ 53 ∧
    (roundShift num den = 0 ∨
      2 ^ 52 ≤ divNearestEven num (den * 2 ^ roundShift num den)) := by
  have key : num / (den * 2 ^ roundShift num den) < 2 ^ 53 ∧
      (roundShift num den = 0 ∨ 2 ^ 52 ≤ num / (den * 2 ^ roundShift num den)) := by
    rw [← Nat.div_div_eq_div_mul]
    rcases roundShift_spec num den with ⟨h1, h2⟩ | ⟨h1, h2, h3⟩
    · rw [h1]
      simp only [pow_zero, Nat.div_one, true_or, and_true]
      exact h2
    · constructor
      · rw [Nat.div_lt_iff_lt_mul (by positivity), ← pow_add, Nat.add_comm 53]
        exact h3
      · right
        rw [Nat.le_div_iff_mul_le (by positivity), ← pow_add, Nat.add_comm 52]
        exact h2
  unfold divNearestEven
  generalize num / (den * 2 ^ roundShift num den) = q at *
  split <;> omega

/-- The magnitude of a pattern made of a shift and a significand. -/
theorem magOfBits_shift {sh r : Nat} (hr : r ≤ 2 ^ 53) (_h : sh = 0 ∨ 2 ^ 52 ≤ r) :
    magOfBits (sh * 2 ^ 52 + r) = r * 2 ^ sh := by
  unfold magOfBits
  rcases Nat.lt_or_ge r (2 ^ 52) with h1 | h1
  · have h0 : sh = 0 := by omega
    subst h0
    rw [if_pos (by omega)]
    omega
  · rcases Nat.lt_or_ge r (2 ^ 53) with h2 | h2
    · rw [if_neg (by omega), show (sh * 2 ^ 52 + r) / 2 ^ 52 - 1 = sh by omega,
        show 2 ^ 52 + (sh * 2 ^ 52 + r) % 2 ^ 52 = r by omega]
    · have : r = 2 ^ 53 := by omega
      subst this
      rw [if_neg (by omega), show (sh * 2 ^ 52 + 2 ^ 53) / 2 ^ 52 - 1 = sh + 1 by omega,
        show 2 ^ 52 + (sh * 2 ^ 52 + 2 ^ 53) % 2 ^ 52 = 2 ^ 52 by omega, pow_succ]
      ring

/-! ## The rounded datum -/

theorem roundBits_le (num den : Nat) : roundBits num den ≤ 2047 * 2 ^ 52 := Nat.min_le_right _ _

theorem roundBits_lt (num den : Nat) : roundBits num den < 2 ^ 63 :=
  lt_of_le_of_lt (roundBits_le num den) (by norm_num)

@[simp] theorem fsign_froundQ (neg : Bool) (num den : Nat) : fsign (froundQ neg num den) = neg :=
  fsign_fpack neg (roundBits_lt num den)

theorem fexp_froundQ (neg : Bool) (num den : Nat) :
    fexp (froundQ neg num den) = roundBits num den / 2 ^ 52 := fexp_fpack neg (roundBits_lt num den)

theorem ffrac_froundQ (neg : Bool) (num den : Nat) :
    ffrac (froundQ neg num den) = roundBits num den % 2 ^ 52 :=
  ffrac_fpack neg (roundBits_lt num den)

/-- Rounding never makes a NaN. -/
@[simp] theorem isNaN_froundQ (neg : Bool) (num den : Nat) : isNaN (froundQ neg num den) = false := by
  have := roundBits_le num den
  unfold isNaN
  rw [fexp_froundQ, ffrac_froundQ]
  by_cases h : roundBits num den / 2 ^ 52 = 2047
  · have : roundBits num den = 2047 * 2 ^ 52 := by omega
    simp [this]
  · rw [beq_eq_false_iff_ne.2 h, Bool.false_and]

theorem isFinite_froundQ (neg : Bool) (num den : Nat) :
    isFinite (froundQ neg num den) = true ↔ roundBits num den < 2047 * 2 ^ 52 := by
  rw [isFinite_iff, fexp_froundQ]
  omega

/-- A rounding that does not overflow gives its significand at its shift. -/
theorem fmag_froundQ {neg : Bool} {num den : Nat} (hd : 0 < den)
    (h : roundBits num den < 2047 * 2 ^ 52) :
    fmag (froundQ neg num den) =
      divNearestEven num (den * 2 ^ roundShift num den) * 2 ^ roundShift num den := by
  obtain ⟨h1, h2⟩ := significand_bounds num hd
  unfold froundQ
  rw [fmag_fpack neg (roundBits_lt num den), ← magOfBits_shift h1 h2]
  congr 1
  unfold roundBits at h ⊢
  omega

/-- A significand below 2^53 at a shift up to 2045 is rounded to itself. -/
theorem roundBits_exact {m e den : Nat} (hm : m < 2 ^ 53) (he : e ≤ 2045)
    (h : e = 0 ∨ 2 ^ 52 ≤ m) (hd : 0 < den) :
    roundBits (m * 2 ^ e * den) den = e * 2 ^ 52 + m := by
  have hq : m * 2 ^ e * den / den = m * 2 ^ e := Nat.mul_div_cancel _ hd
  have hs : roundShift (m * 2 ^ e * den) den = e := by
    unfold roundShift
    rw [hq]
    rcases Nat.eq_zero_or_pos e with rfl | hp
    · simp only [pow_zero, Nat.mul_one]
      rw [if_pos hm]
    · have hm' : 2 ^ 52 ≤ m := by omega
      have h2 : 2 ^ (52 + e) ≤ m * 2 ^ e := by
        rw [pow_add]
        exact Nat.mul_le_mul_right _ hm'
      have h3 : m * 2 ^ e < 2 ^ (53 + e) := by
        rw [pow_add]
        exact Nat.mul_lt_mul_of_pos_right hm (by positivity)
      have h4 : 2 ^ 53 ≤ m * 2 ^ e :=
        le_trans (Nat.pow_le_pow_right (by norm_num) (by omega)) h2
      have h5 : m * 2 ^ e ≠ 0 := by omega
      rw [if_neg (by omega)]
      have h6 : 52 + e ≤ Nat.log2 (m * 2 ^ e) := (Nat.le_log2 h5).2 h2
      have h7 : Nat.log2 (m * 2 ^ e) < 53 + e := (Nat.log2_lt h5).2 h3
      omega
  unfold roundBits
  rw [hs, show m * 2 ^ e * den = m * (den * 2 ^ e) by ring,
    divNearestEven_exact m (by positivity)]
  omega

/-- A finite datum is rounded to itself. -/
theorem froundQ_self (neg : Bool) {x : F64} {den : Nat} (h : isFinite x = true) (hd : 0 < den) :
    froundQ neg (fmag x * den) den = fpack neg (fexp x * 2 ^ 52 + ffrac x) := by
  obtain ⟨m, e, h1, h2, h3, h4, h5⟩ := fmag_parts h
  unfold froundQ
  rw [h4, roundBits_exact h1 h2 h3 hd, h5]

/-- The same with the datum's own sign: rounding gives the datum back. -/
theorem froundQ_fmag {x : F64} {den : Nat} (h : isFinite x = true) (hd : 0 < den) :
    froundQ (fsign x) (fmag x * den) den = x := by
  rw [froundQ_self _ h hd, fpack_parts]

/-- A number of at most 53 bits, shifted, has a significand of exactly 53 bits or shift 0. -/
theorem normal_form {m e : Nat} (hm : m < 2 ^ 53) (he : e ≤ 2045) :
    ∃ m' e', m' < 2 ^ 53 ∧ e' ≤ 2045 ∧ (e' = 0 ∨ 2 ^ 52 ≤ m') ∧ m * 2 ^ e = m' * 2 ^ e' := by
  induction e generalizing m with
  | zero => exact ⟨m, 0, hm, by omega, .inl rfl, rfl⟩
  | succ e ih =>
    rcases Nat.lt_or_ge m (2 ^ 52) with h | h
    · obtain ⟨m', e', h1, h2, h3, h4⟩ := ih (m := 2 * m) (by omega) (by omega)
      exact ⟨m', e', h1, h2, h3, by rw [← h4, pow_succ]; ring⟩
    · exact ⟨m, e + 1, hm, he, .inr h, rfl⟩

/-- A number of at most 53 bits, shifted by at most 2045, is rounded to a finite datum of exactly that
magnitude. -/
theorem froundQ_exact (neg : Bool) {m e den : Nat} (hm : m < 2 ^ 53) (he : e ≤ 2045) (hd : 0 < den) :
    isFinite (froundQ neg (m * 2 ^ e * den) den) = true ∧
      fmag (froundQ neg (m * 2 ^ e * den) den) = m * 2 ^ e := by
  obtain ⟨m', e', h1, h2, h3, h4⟩ := normal_form hm he
  have hb : roundBits (m * 2 ^ e * den) den = e' * 2 ^ 52 + m' := by
    rw [h4]
    exact roundBits_exact h1 h2 h3 hd
  constructor
  · rw [isFinite_froundQ, hb]
    omega
  · unfold froundQ
    rw [fmag_fpack neg (roundBits_lt _ _), hb, magOfBits_shift (by omega) h3, h4]

/-! ## Integers as data -/

theorem funit_pos : 0 < funit := by unfold funit; positivity

/-- Integers up to 2^53 are exact (R10). -/
theorem f64OfNat_exact {n : Nat} (h : n ≤ 2 ^ 53) :
    isFinite (f64OfNat n) = true ∧ fmag (f64OfNat n) = n * funit ∧ fsign (f64OfNat n) = false := by
  have key : ∃ m e, m < 2 ^ 53 ∧ e ≤ 2045 ∧ n * funit = m * 2 ^ e := by
    rcases Nat.lt_or_ge n (2 ^ 53) with h' | h'
    · exact ⟨n, 1074, h', by norm_num, rfl⟩
    · refine ⟨2 ^ 52, 1075, by norm_num, by norm_num, ?_⟩
      rw [show n = 2 ^ 53 by omega, funit, ← pow_add, ← pow_add]
  obtain ⟨m, e, h1, h2, h3⟩ := key
  obtain ⟨h4, h5⟩ := froundQ_exact false h1 h2 Nat.one_pos
  rw [Nat.mul_one, ← h3] at h4 h5
  exact ⟨h4, h5, fsign_froundQ _ _ _⟩

theorem f64OfNat_zero : f64OfNat 0 = fzero false := by
  unfold f64OfNat froundQ fzero
  rw [Nat.zero_mul]
  rfl

theorem fval_of_pos {x : F64} (h : fsign x = false) : fval x = fmag x := by simp [fval, h]

/-- The sum of two finite data that are not negative. -/
theorem fadd_of_pos {x y : F64} (hx : isFinite x = true) (hy : isFinite y = true)
    (sx : fsign x = false) (sy : fsign y = false) :
    fadd x y = froundQ false (fmag x + fmag y) 1 := by
  unfold fadd
  rw [isNaN_of_finite hx, isNaN_of_finite hy, isInf_of_finite hx, isInf_of_finite hy,
    fval_of_pos sx, fval_of_pos sy, sx, sy, ← Int.natCast_add]
  generalize fmag x + fmag y = m
  rcases Nat.eq_zero_or_pos m with rfl | hm
  · rfl
  · have h0 : ¬ ((m : Int) = 0) := by omega
    have h1 : ¬ ((m : Int) < 0) := by omega
    simp only [Bool.or_self, Bool.false_eq_true, if_false, h0, h1, decide_false, Int.natAbs_natCast]

/-- Sums of integers up to 2^53 are exact. -/
theorem fadd_f64OfNat {a b : Nat} (h : a + b ≤ 2 ^ 53) :
    fadd (f64OfNat a) (f64OfNat b) = f64OfNat (a + b) := by
  obtain ⟨ha, hma, hsa⟩ := f64OfNat_exact (n := a) (by omega)
  obtain ⟨hb, hmb, hsb⟩ := f64OfNat_exact (n := b) (by omega)
  rw [fadd_of_pos ha hb hsa hsb, hma, hmb, ← Nat.add_mul]
  exact Eq.refl (froundQ false ((a + b) * funit) 1)

/-! ## Products and quotients of finite data -/

theorem fmul_of_finite {x y : F64} (hx : isFinite x = true) (hy : isFinite y = true) :
    fmul x y = froundQ (fsign x != fsign y) (fmag x * fmag y) funit := by
  unfold fmul
  rw [isNaN_of_finite hx, isNaN_of_finite hy, isInf_of_finite hx, isInf_of_finite hy]
  rfl

theorem fdiv_of_finite {x y : F64} (hx : isFinite x = true) (hy : isFinite y = true)
    (h : fmag y ≠ 0) : fdiv x y = froundQ (fsign x != fsign y) (fmag x * funit) (fmag y) := by
  unfold fdiv
  rw [isNaN_of_finite hx, isNaN_of_finite hy, isInf_of_finite hx, isInf_of_finite hy, if_neg h]
  rfl

/-- A common factor of numerator and denominator does not matter to the rounding. -/
theorem froundQ_mul_right (neg : Bool) (num : Nat) {d : Nat} (hd : 0 < d) :
    froundQ neg (num * d) d = froundQ neg num 1 := by
  have e : roundShift (num * d) d = roundShift num 1 := by
    unfold roundShift
    rw [Nat.mul_div_cancel _ hd, Nat.div_one]
  have e2 : divNearestEven (num * d) (d * 2 ^ roundShift num 1) =
      divNearestEven num (1 * 2 ^ roundShift num 1) := by
    unfold divNearestEven
    rw [Nat.one_mul, Nat.mul_comm num d, Nat.mul_div_mul_left _ _ hd, Nat.mul_mod_mul_left]
    generalize num % _ = a
    generalize 2 ^ _ = b
    have h1 : d * b < 2 * (d * a) ↔ b < 2 * a := by
      rw [show 2 * (d * a) = d * (2 * a) by ring]
      exact Nat.mul_lt_mul_left hd
    have h2 : 2 * (d * a) = d * b ↔ 2 * a = b := by
      rw [show 2 * (d * a) = d * (2 * a) by ring]
      exact Nat.mul_right_inj (Nat.pos_iff_ne_zero.1 hd)
    simp only [h1, h2]
  unfold froundQ roundBits
  rw [e, e2]

/-! ## The integer square root -/

theorem isqrtFrom_spec (n k r : Nat) (h1 : r * r ≤ n)
    (h2 : n < (r + 2 ^ (k + 1)) * (r + 2 ^ (k + 1))) :
    isqrtFrom n k r * isqrtFrom n k r ≤ n ∧
      n < (isqrtFrom n k r + 1) * (isqrtFrom n k r + 1) := by
  induction k generalizing r with
  | zero =>
    unfold isqrtFrom
    split
    · rename_i h
      exact ⟨h, by simpa [Nat.add_assoc] using h2⟩
    · rename_i h
      exact ⟨h1, by omega⟩
  | succ k ih =>
    unfold isqrtFrom
    split
    · rename_i h
      refine ih _ h ?_
      have : r + 2 ^ (k + 1) + 2 ^ (k + 1) = r + 2 ^ (k + 1 + 1) := by rw [pow_succ 2 (k + 1)]; ring
      rw [this]
      exact h2
    · rename_i h
      exact ih _ h1 (by omega)

/-- `isqrt n` is the largest number whose square is at most `n`. -/
theorem isqrt_spec (n : Nat) : isqrt n * isqrt n ≤ n ∧ n < (isqrt n + 1) * (isqrt n + 1) := by
  refine isqrtFrom_spec n _ 0 (Nat.zero_le _) ?_
  have h : n < 2 ^ (Nat.log2 n + 1) := Nat.lt_log2_self
  refine lt_of_lt_of_le h ?_
  rw [Nat.zero_add, ← pow_add]
  exact Nat.pow_le_pow_right (by norm_num) (by omega)

/-! ## Canonical NaN -/

theorem isNaN_qNaN : isNaN qNaN = true := by decide

/-- `canon` is the datum itself unless it is a NaN (R10). -/
theorem canon_of_not_nan {x : F64} (h : isNaN x = false) : canon x = x := by
  simp [canon, h]

end Sys2Proof.Machine
end

