-- ==== Sys2Proof/Laws/Host.lean ====
section
/-! SUPPORT. What a host transaction can do, said once (10_state.md R24, R25; 20_memory.md R63, R64). -/

namespace Sys2Proof.Machine

/-- Every register is reached at its own offset (10_state.md R23). -/
@[simp] theorem regAt_offset (r : RegName) : regAt r.offset = some r := by
  cases r <;> rfl

@[simp] theorem accessedReg_offset (r : RegName) : accessedReg r.offset .w4 = some r :=
  regAt_offset r

/-- No register is reached at a misaligned offset or past 0x030. -/
theorem regAt_none_of_bad {off : BitVec 12} (h : off.toNat % 4 ≠ 0 ∨ 0x030 < off.toNat) :
    regAt off = none := by
  unfold regAt
  split <;> simp_all

/-- A register is reached only at its own offset. -/
theorem offset_of_regAt {off : BitVec 12} {r : RegName} (h : regAt off = some r) :
    off = r.offset := by
  unfold regAt at h
  split at h
  all_goals first
    | (obtain rfl := Option.some.inj h
       apply BitVec.eq_of_toNat_eq
       simpa [RegName.offset] using ‹off.toNat = _›)
    | simp at h

/-- An aligned offset up to 0x030 is a register. -/
theorem regAt_of_good {off : BitVec 12} (h : off.toNat % 4 = 0) (h' : off.toNat ≤ 0x030) :
    ∃ r, regAt off = some r := by
  obtain ⟨k, hk⟩ : ∃ k, off.toNat = 4 * k := ⟨off.toNat / 4, by omega⟩
  have hk' : k ≤ 12 := by omega
  unfold regAt
  rw [hk]
  interval_cases k <;> exact ⟨_, rfl⟩

/-- The accesses the register port turns away, as 10_state.md R24 lists them. -/
theorem accessedReg_none_iff (off : BitVec 12) (w : Width) :
    accessedReg off w = none ↔ w ≠ .w4 ∨ off.toNat % 4 ≠ 0 ∨ 0x030 < off.toNat := by
  cases w with
  | w4 =>
    simp only [accessedReg, ne_eq, not_true_eq_false, false_or]
    constructor
    · intro h
      by_contra hc
      obtain ⟨r, hr⟩ := regAt_of_good (off := off) (by omega) (by omega)
      rw [hr] at h
      simp at h
    · exact regAt_none_of_bad
  | _ => simp [accessedReg]

@[simp] theorem hostError_status_busy (s : State) : (hostError s).status.busy = s.status.busy := rfl

/-- Everything a register write can do. -/
theorem writeReg_cases (r : RegName) (v : Word) (s : State) :
    writeReg r v s = hostError s ∨
    (r = .cmd ∧ s.status.busy = false ∧ writeReg r v s = issue v s) ∨
    (r = .ctrl ∧ v.getLsbD 2 = true ∧ writeReg r v s = softReset s) ∨
    (r = .ctrl ∧ v.getLsbD 2 = false ∧ writeReg r v s = { s with ctrl := Ctrl.ofWord v }) ∨
    (r = .status ∧ writeReg r v s = { s with status := s.status.clear v }) ∨
    (r = .len ∧ writeReg r v s = { s with len := v }) ∨
    (r = .srcAddr ∧ writeReg r v s = { s with srcAddr := v }) ∨
    (r = .src2Addr ∧ writeReg r v s = { s with src2Addr := v }) ∨
    (r = .dstAddr ∧ writeReg r v s = { s with dstAddr := v }) ∨
    (r = .dstCap ∧ writeReg r v s = { s with dstCap := v }) ∨
    (r = .quality ∧ writeReg r v s = { s with quality := v }) := by
  cases r <;> simp only [writeReg, reduceCtorEq, false_and, or_false, false_or, true_and, or_true]
  · unfold writeCtrl
    cases h : v.getLsbD 2 <;> simp
  · unfold writeCmd
    cases h : s.status.busy <;> simp

/-- Everything a host transaction can do to the state, besides the reply: nothing, a host access
error, the write effect of a register, or a store while BUSY = 0. -/
theorem hostStep_cases (t : Transaction) (s : State) :
    (∃ r, hostStep t s = withReply r s) ∨
    (∃ r, hostStep t s = withReply r (hostError s)) ∨
    (∃ off v r, t = .regWrite off .w4 v ∧ regAt off = some r ∧
      hostStep t s = withReply none (writeReg r (v.setWidth 32) s)) ∨
    (∃ a w v, t = .memWrite a w v ∧ s.status.busy = false ∧ a.toNat + w.bytes ≤ s.mem.size ∧
      hostStep t s = withReply none { s with mem := s.mem.writeNat a.toNat w.bytes v.toNat }) := by
  cases t with
  | regRead off w =>
    simp only [hostStep, regRead]
    split
    · exact .inr (.inl ⟨_, rfl⟩)
    · exact .inl ⟨_, rfl⟩
  | regWrite off w v =>
    simp only [hostStep, regWrite]
    split
    · exact .inr (.inl ⟨_, rfl⟩)
    · rename_i r h
      cases w with
      | w4 => exact .inr (.inr (.inl ⟨off, v, r, rfl, h, rfl⟩))
      | _ => simp [accessedReg] at h
  | memRead a w =>
    simp only [hostStep, hostMemRead]
    split
    · exact .inr (.inl ⟨_, rfl⟩)
    · exact .inl ⟨_, rfl⟩
  | memWrite a w v =>
    simp only [hostStep, hostMemWrite]
    split
    · exact .inr (.inl ⟨_, rfl⟩)
    · rename_i h
      simp only [memRefused, Bool.or_eq_true, decide_eq_true_eq, not_or, Bool.not_eq_true] at h
      exact .inr (.inr (.inr ⟨a, w, v, rfl, h.1, by omega, rfl⟩))

end Sys2Proof.Machine
end

