-- ==== Sys2Proof/Laws/PerInstr.lean ====
section
/-! SUPPORT. What holds of every command as syntax: its word decodes to it, and the word's fields pass
every check (30_encoding.md R80, R81). -/

namespace Sys2Proof.Laws.EncodeRoundTrip

/-- The command's word decodes to the command, as a word and as its four bytes, and its fields are
well-formed. -/
def Statement (i : Instr) : Prop :=
  decode (encode i) = .ok i ∧ decodeBytes (wordBytes (encode i)) = .ok i ∧
    i.wellFormed = true ∧ (instrFields i).wellFormed = true

theorem rleEnc : Statement .rleEnc := by unfold Statement; decide

theorem rleDec : Statement .rleDec := by unfold Statement; decide

theorem dct : Statement .dct := by unfold Statement; decide

theorem idct : Statement .idct := by unfold Statement; decide

theorem idctT : Statement .idctT := by unfold Statement; decide

theorem quant : Statement .quant := by unfold Statement; decide

theorem psnr : Statement .psnr := by unfold Statement; decide

end Sys2Proof.Laws.EncodeRoundTrip
end

