-- ==== Sys2Proof/Laws/Step.lean ====
section
/-! SUPPORT. What one step can do, said once. -/

namespace Sys2Proof.Machine

/-- The engine's turn: a command completes, an illegal word ends in error, or an idle block rests. -/
theorem engineTurn_cases (s : State) :
    (s.status.busy = false ∧ engineTurn s = .next s) ∨
    (s.status.busy = true ∧ ∃ i, decode s.latch.cmd = .ok i ∧ engineTurn s = exec i s) ∨
    (s.status.busy = true ∧ (∃ e, decode s.latch.cmd = .error e) ∧
      engineTurn s = .next (raise .illegalCmd s)) := by
  unfold engineTurn latchedBytes
  rw [decodeBytes_wordBytes]
  cases hb : s.status.busy with
  | false => exact .inl ⟨rfl, by simp⟩
  | true =>
    cases hd : decode s.latch.cmd with
    | ok i => exact .inr (.inl ⟨rfl, i, rfl, by simp⟩)
    | error e => exact .inr (.inr ⟨rfl, ⟨e, rfl⟩, by simp⟩)

/-- The engine's turn ends the running command, or leaves an idle block as it is. -/
theorem engineTurn_result (s : State) :
    ∃ t, engineTurn s = .next t ∧
      ((s.status.busy = false ∧ t = s) ∨
        (s.status.busy = true ∧ CompletionFrame s t ∧ t.status.busy = false ∧
          t.status.done = true)) := by
  rcases engineTurn_cases s with ⟨hb, h⟩ | ⟨hb, i, -, h⟩ | ⟨hb, -, h⟩
  · exact ⟨s, h, .inl ⟨hb, rfl⟩⟩
  · rcases exec_cases i s with ⟨e, he⟩ | ⟨-, -, -, -, he⟩ | ⟨-, -, he⟩ <;>
      exact ⟨_, h.trans he, .inr ⟨hb, (exec_frame he).1, (exec_frame he).2⟩⟩
  · exact ⟨_, h, .inr ⟨hb, raise_frame _ s, rfl, rfl⟩⟩

/-- One step, by whose turn it is. -/
theorem step_cases (s : State) :
    (EngineMovesNext s ∧ step s = engineTurn (dropTurn s)) ∨
    (∃ t ts, s.turns = .host t :: ts ∧ step s = .next (hostStep t (dropTurn s))) ∨
    (∃ ts, s.turns = .hardReset :: ts ∧ step s = .next (hardReset (dropTurn s))) := by
  unfold step EngineMovesNext
  split
  · rename_i h
    refine .inl ⟨.inl h, ?_⟩
    have : dropTurn s = s := by
      cases s
      simp_all [dropTurn]
    rw [this]
  · rename_i ts h
    exact .inl ⟨.inr ⟨ts, h⟩, rfl⟩
  · rename_i t ts h
    exact .inr (.inl ⟨t, ts, h, rfl⟩)
  · rename_i ts h
    exact .inr (.inr ⟨ts, h, rfl⟩)

@[simp] theorem dropTurn_withHost (t : Transaction) (s : State) : dropTurn (withHost t s) = s := rfl

/-- A host's turn is its transaction's effect. -/
theorem step_withHost (t : Transaction) (s : State) : step (withHost t s) = .next (hostStep t s) := rfl

end Sys2Proof.Machine
end

