-- ==== Sys2Proof/Tests/Slice0.lean ====
section
/-! SUPPORT. The model's own tests. Every expected result is written out from the spec, mostly from
95_test_vectors.md (the vector is named in the docstring); the `witness_` theorems show concrete inputs
that meet the hypotheses of the statements, clause by clause. -/

open Sys2Proof Sys2Proof.Machine

namespace Sys2Proof.Tests

/-! Each `decide +kernel` waits for the kernel to have checked all that stands before it; one after
another, not all at once. -/

set_option Elab.async false

/-! ## Small states -/

/-- The block after reset with MEM_BYTES = 4096, the size the test vectors use. -/
def base : State := { State.reset with mem := { size := 4096, epoch := 0, cells := [] } }

/-- Bytes listed from address `a` on. -/
def bytesAt (a : Nat) (bs : List Byte) : List Host.Cell := bs.zipIdx.map (fun p => (a + p.2, p.1))

/-- LATCH with the operands most commands read. -/
def latch (cmd src len dst cap : Word) (q : Word := 0) (src2 : Word := 0) : Latch :=
  { cmd := cmd, len := len, src := src, src2 := src2, dst := dst, cap := cap, q := q }

/-- The block while the latched command runs. -/
def running (L : Latch) (cells : List Host.Cell) : State :=
  { base with
    status := { busy := true, done := false, err := false, errcode := 0, herr := false }
    cmd := L.cmd, latch := L, mem := { size := 4096, epoch := 0, cells := cells } }

/-- The state an outcome goes on with. -/
def after : Host.Outcome State Fault Refusal → State
  | .next t => t
  | .fault _ => State.reset
  | .refused _ => State.reset

/-- The state after one host transaction. -/
def host (t : Transaction) (s : State) : State := after (step (withHost t s))

/-- The bytes an outcome leaves in MEM. -/
def bytesAfter (o : Host.Outcome State Fault Refusal) (a n : Nat) : List Byte :=
  (after o).mem.readBytes a n

/-- The read value of STATUS an outcome leaves. -/
def statusAfter (o : Host.Outcome State Fault Refusal) : Word := (after o).status.word

/-- The error code of an outcome. -/
def codeAfter (o : Host.Outcome State Fault Refusal) : BitVec 4 := (after o).status.errcode

/-- The cosine table of 95_test_vectors.md section 2.7; NaN outside it. -/
def tableCos (x : F64) : F64 :=
  match [((0 : F64), (0x3FF0000000000000 : F64)),
      (0x3FD921FB54442D18, 0x3FED906BCF328D46), (0x3FE921FB54442D18, 0x3FE6A09E667F3BCD),
      (0x3FF2D97C7F3321D2, 0x3FD87DE2A6AEA964), (0x4002D97C7F3321D2, 0xBFE6A09E667F3BCC),
      (0x400C463ABECCB2BB, 0xBFED906BCF328D47), (0x3FFF6A7A2955385E, 0xBFD87DE2A6AEA962),
      (0x400F6A7A2955385E, 0xBFE6A09E667F3BCE), (0x40178FDB9EFFEA46, 0x3FED906BCF328D44),
      (0x4005FDBBE9BBA775, 0xBFED906BCF328D46), (0x4015FDBBE9BBA775, 0x3FE6A09E667F3BCB),
      (0x40207E4CEF4CBD98, 0xBFD87DE2A6AEA965)].find? (fun p => p.1 == x) with
  | some p => p.2
  | none => qNaN

/-! ## Decode: each word written out from 30_encoding.md R80 and R81 -/

/-- OP = 1, RND = 0, bits 31:5 = 0 (V-DEC-2). -/
theorem test_decode_rleEnc : decodeTableWord 32 0b00000000000000000000000000000001 = some .rleEnc := by
  decide

/-- OP = 2 (V-DEC-3). -/
theorem test_decode_rleDec : decodeTableWord 32 0b00000000000000000000000000000010 = some .rleDec := by
  decide

/-- OP = 3 (V-DEC-4). -/
theorem test_decode_dct : decodeTableWord 32 0b00000000000000000000000000000011 = some .dct := by
  decide

/-- OP = 4, RND = 0 (V-DEC-5). -/
theorem test_decode_idct : decodeTableWord 32 0b00000000000000000000000000000100 = some .idct := by
  decide

/-- OP = 4, RND = 1 (V-DEC-6). -/
theorem test_decode_idctT : decodeTableWord 32 0b00000000000000000000000000010100 = some .idctT := by
  decide

/-- OP = 5 (V-DEC-7). -/
theorem test_decode_quant : decodeTableWord 32 0b00000000000000000000000000000101 = some .quant := by
  decide

/-- OP = 6 (V-DEC-8). -/
theorem test_decode_psnr : decodeTableWord 32 0b00000000000000000000000000000110 = some .psnr := by
  decide

/-- The illegal words of V-DEC-1 and V-DEC-9 to V-DEC-13. -/
theorem test_decode_illegal :
    ∀ w ∈ [0x00000000, 0x00000007, 0x00000008, 0x0000000F, 0x00000010, 0x00000011, 0x00000015,
      0x00000016, 0x00000024, 0x00000104, 0x80000004, 0xFFFFFFFF], decodeTableWord 32 w = none := by
  decide

/-! ## WellFormed: each check refuses an ill-formed word -/

theorem test_wellFormed_reserved :
    ({ op := 4, rnd := false, rsv := 1 } : CmdWord).reservedClear = false ∧
    ({ op := 4, rnd := false, rsv := 1 } : CmdWord).wellFormed = false := by decide

theorem test_wellFormed_rounding :
    ({ op := 5, rnd := true, rsv := 0 } : CmdWord).roundingAllowed = false ∧
    ({ op := 5, rnd := true, rsv := 0 } : CmdWord).wellFormed = false := by decide

theorem test_wellFormed_op :
    ({ op := 7, rnd := false, rsv := 0 } : CmdWord).opDefined = false ∧
    ({ op := 0, rnd := false, rsv := 0 } : CmdWord).wellFormed = false := by decide

/-! ## Commands, at most two tests each -/

/-- V-RLE-9 in MEM: the output and its length. -/
theorem test_rleEnc :
    let o := exec .rleEnc (running (latch 1 0 4 0x100 8) (bytesAt 0 [10, 10, 10, 200]))
    bytesAfter o 0x100 4 = [3, 10, 1, 200] ∧ (after o).outLen = 4 ∧ statusAfter o = 2 := by
  decide +kernel

/-- V-RLE-5: a run of 256 splits after 255. -/
theorem test_rleEnc_long : rleEnc (List.replicate 256 0x63) = [0xFF, 0x63, 0x01, 0x63] := by
  decide +kernel

/-- V-ERR-29: a count of 0 appends nothing. -/
theorem test_rleDec :
    let o := exec .rleDec (running (latch 2 0 4 0x100 32) (bytesAt 0 [0, 9, 3, 9]))
    bytesAfter o 0x100 3 = [9, 9, 9] ∧ (after o).outLen = 3 ∧ statusAfter o = 2 := by
  decide +kernel

/-- V-ERR-21: ten bytes into a window of nine: CAPACITY, nothing written. -/
theorem test_rleDec_capacity :
    let o := exec .rleDec (running (latch 2 0 2 0x100 9) (bytesAt 0 [10, 7]))
    statusAfter o = 0x76 ∧ (after o).outLen = 0 ∧ (after o).mem.cells = bytesAt 0 [10, 7] := by
  decide +kernel

/-- V-DCT-3 with the table's cosines. -/
theorem test_dct : dct tableCos [10, 10, 10, 200] =
    [0xC061A00000000000, 0xC05F07E71FA255B6, 0x4057C00000000001, 0xC049B4F1CFD967FB] := by
  decide +kernel

/-- V-ERR-9: ALIGN even with LEN = 0. -/
theorem test_dct_align : statusAfter (exec .dct (running (latch 3 0 0 0x101 0) [])) = 0x46 := by
  decide +kernel

/-- V-IDCT-3, rounding. -/
theorem test_idct : idct tableCos false
    [0xC061A00000000000, 0xC05F07E71FA255B6, 0x4057C00000000001, 0xC049B4F1CFD967FB] =
    [10, 10, 10, 200] := by decide +kernel

/-- V-CONV-1, 2, 4, 7, 13, 15 and 16, rounding. -/
theorem test_conv_rounds :
    [(0x405FE00000000000 : F64), 0x405FDFFFFFFFFFFF, 0x4004000000000000, 0xBFF8000000000000,
      0x4072C00000000000, 0xFFF0000000000000, 0x7FF8000000000000].map (conv false) =
    [128, 127, 3, 0, 255, 0, 0] := by decide +kernel

/-- V-IDCT-3, truncating. -/
theorem test_idctT : idct tableCos true
    [0xC061A00000000000, 0xC05F07E71FA255B6, 0x4057C00000000001, 0xC049B4F1CFD967FB] =
    [10, 9, 10, 200] := by decide +kernel

/-- V-CONV-1, 3, 4, 9, 12, 14 and 17, truncating. -/
theorem test_conv_truncates :
    [(0x405FE00000000000 : F64), 0x3FE0000000000000, 0x4004000000000000, 0x406FD00000000000,
      0x406FF00000000000, 0x7FF0000000000000, 0x4023FFFFFFFFFFF0].map (conv true) =
    [127, 0, 2, 254, 255, 255, 9] := by decide +kernel

/-- V-Q-1, 2, 4, 6 and 9, with their quality factors. -/
theorem test_quant_values :
    [((0xBFD3333333333333 : F64), (1 : Int)), (0x4004000000000000, 1), (0x3FDFFFFFFFFFFFFF, 1),
      (0x401C000000000000, 2), (0xC02E000000000000, 10)].map (fun p => quantOne p.2 p.1) =
    [0x8000000000000000, 0x4008000000000000, 0x0000000000000000, 0x4020000000000000,
      0xC034000000000000] := by decide +kernel

/-- V-Q-11 in MEM: -236.0 at quality 100 gives -200.0, eight bytes little-endian. -/
theorem test_quant :
    let o := exec .quant (running (latch 5 0x100 1 0x200 8 100)
      (bytesAt 0x100 [0, 0, 0, 0, 0, 0x80, 0x6D, 0xC0]))
    bytesAfter o 0x200 8 = [0, 0, 0, 0, 0, 0, 0x69, 0xC0] ∧ (after o).outLen = 8 := by
  decide +kernel

/-- V-PSNR-2: S = 100, n = 4, ratio 2601.0, with LOG10_FN(2601.0) = 3.415140352195873. -/
theorem test_psnr_value :
    psnr (fun x => if x = 0x40A4520000000000 then 0x400B52351ADF7317 else qNaN)
      [10, 10, 10, 200] [10, 10, 10, 190] = 0x4041136130CBA7EE := by decide +kernel

/-- V-PSNR-4 in MEM, both operands one region: 100.0 in PSNR_HI:PSNR_LO. -/
theorem test_psnr :
    let o := exec .psnr (running (latch 6 0 2 0 0) (bytesAt 0 [7, 7]))
    (after o).psnrHi = 0x40590000 ∧ (after o).psnrLo = 0 ∧ (after o).outLen = 0 ∧
      statusAfter o = 2 := by decide +kernel

/-! ## Checks in order, ports, steps -/

/-- V-ERR-4, 8, 12, 15, 17: the first failing check names the error. -/
theorem test_check_order :
    codeAfter (exec .quant (running (latch 5 0x104 4 0x200 32 0) [])) = 2 ∧
    codeAfter (exec .rleDec (running (latch 2 0xFFF 3 0x200 32) [])) = 3 ∧
    codeAfter (exec .idct (running (latch 4 0x100 0x20000000 0x800 0x100) [])) = 5 ∧
    codeAfter (exec .rleEnc (running (latch 1 0xFF0 4 0xFF0 0x20) [])) = 5 ∧
    codeAfter (exec .rleEnc (running (latch 1 0 4 0 1) [])) = 6 := by decide +kernel

/-- V-REG-7, V-REG-8: CTRL reads back its enables; bit 2 resets and discards them. -/
theorem test_ctrl :
    (host (rd .ctrl) (host (wr .ctrl 0xFFFFFFFB) base)).reply = some 3 ∧
    (host (rd .ctrl) (host (wr .ctrl 7) (host (wr .ctrl 3) base))).reply = some 0 := by
  decide +kernel

/-- V-REG-9, V-REG-10: DONE clears alone; ERR clears ERRCODE too. -/
theorem test_status_clear :
    let s := { base with status := { busy := false, done := true, err := true, errcode := 7,
                                     herr := true } }
    s.status.word = 0x176 ∧ (host (wr .status 2) s).status.word = 0x174 ∧
      (host (wr .status 4) (host (wr .status 2) s)).status.word = 0x100 := by decide +kernel

/-- V-MEM-5, V-MEM-9: a wide little-endian load; the address sum does not wrap. -/
theorem test_memory_port :
    let s := { base with mem := { base.mem with
      cells := bytesAt 0 [0x0A, 0x0A, 0x0A, 0xC8, 0x11, 0x22, 0x33, 0x44] } }
    (host (ld .w8 0) s).reply = some 0x44332211C80A0A0A ∧
      (host (ld .w4 0xFFFFFFFF) s).reply = some 0 ∧
      (host (ld .w4 0xFFFFFFFF) s).status.word = 0x100 := by decide +kernel

/-- V-REG-18: a parameter write while a command runs is accepted, and LATCH keeps the old value. -/
theorem test_write_while_busy :
    let s := host (wr .len 9) (running (latch 1 0 4 0x100 8) (bytesAt 0 [10, 10, 10, 200]))
    s.len = 9 ∧ s.status.herr = false ∧ (after (step s)).outLen = 4 := by decide +kernel

/-! ## Witnesses: the hypotheses of the statements can be met

Each shows concrete inputs that meet all the hypotheses of one statement together, one theorem for each
clause or boundary where a statement has several. -/

/-- The destination window's checks, as one evaluation. -/
theorem windowReady_of_check {s : State} {l : Nat}
    (h : (Region.inRange s.mem.size ⟨s.latch.src.toNat, l⟩ &&
      (window s.latch).inRange s.mem.size &&
      (window s.latch).disjoint ⟨s.latch.src.toNat, l⟩) = true) : WindowReady s l := by
  simp only [Bool.and_eq_true] at h
  exact ⟨(inRange_iff _ _).1 h.1.1, (inRange_iff _ (window s.latch)).1 h.1.2,
    (disjoint_iff (window s.latch) _).1 h.2⟩

/-- RLE.ENC of V-RLE-9. -/
def sRleEnc : State := running (latch 1 0 4 0x100 4) (bytesAt 0 [10, 10, 10, 200])
/-- RLE.DEC of V-RLD-2. -/
def sRleDec : State := running (latch 2 0 4 0x100 4) (bytesAt 0 [3, 10, 1, 200])
/-- DCT into a window that touches its source's end (V-ERR-28). -/
def sDct : State := running (latch 3 0 4 8 32) (bytesAt 0 [10, 10, 10, 200])
/-- IDCT of two coefficients at the end of MEM. -/
def sIdct : State := running (latch 4 0xFF0 2 0x200 2) []
/-- IDCT.T of the same. -/
def sIdctT : State := running (latch 0x14 0xFF0 2 0x200 2) []
/-- QUANT with the smallest legal quality. -/
def sQuant : State := running (latch 5 0x100 4 0x200 32 1) []
/-- PSNR of overlapping sources, window fields out of range (V-ERR-27). -/
def sPsnr : State := running (latch 6 0 4 0xFFFFFFFF 0xFFFFFFFF 0 2) (bytesAt 0 [7, 7, 7, 7, 7, 7])
/-- The illegal word of V-ERR-2. -/
def sIllegal : State := running (latch 0x24 0x100 4 0x200 4) []

theorem witness_DecodeFollowsOpcodeMap_reserved :
    (0x20 : Word).extractLsb' 5 27 ≠ 0 ∧ (0x80000004 : Word).extractLsb' 5 27 ≠ 0 := by decide

theorem witness_DecodeFollowsOpcodeMap_rounding :
    (0x15 : Word).getLsbD 4 = true ∧ (0x15 : Word).extractLsb' 0 4 ≠ 4 := by decide

theorem witness_DecodeFollowsOpcodeMap_legal :
    (0x14 : Word).extractLsb' 5 27 = 0 ∧ (0x14 : Word).extractLsb' 0 4 = 4 ∧
    (0x14 : Word).getLsbD 4 = true ∧ (0x06 : Word).extractLsb' 5 27 = 0 ∧
    (0x06 : Word).getLsbD 4 = false ∧ (0x06 : Word).extractLsb' 0 4 = 6 ∧
    (0x07 : Word).extractLsb' 5 27 = 0 ∧ 7 ≤ ((0x07 : Word).extractLsb' 0 4).toNat := by decide

theorem witness_StepRunsDecodedCommand :
    sRleEnc.status.busy = true ∧ EngineMovesNext sRleEnc ∧
      decodeBytes (latchedBytes sRleEnc) = .ok .rleEnc ∧ Instr.rleEnc.wellFormed = true :=
  ⟨rfl, .inl rfl, by decide, rfl⟩

theorem witness_StepRunsDecodedCommand_turn :
    ({ sPsnr with turns := [.engine, .hardReset] } : State).status.busy = true ∧
      EngineMovesNext { sPsnr with turns := [.engine, .hardReset] } ∧
      decodeBytes (latchedBytes { sPsnr with turns := [.engine, .hardReset] }) = .ok .psnr ∧
      Instr.psnr.wellFormed = true :=
  ⟨rfl, .inr ⟨_, rfl⟩, by decide, rfl⟩

theorem witness_EngineIdleWhileNotBusy : base.status.busy = false ∧ EngineMovesNext base :=
  ⟨rfl, .inl rfl⟩

theorem witness_RunningCommandEnds : sRleEnc.status.busy = true := rfl

theorem witness_BusyFallsOnlyAtCompletionOrReset :
    step sRleEnc = .next (after (step sRleEnc)) ∧ sRleEnc.status.busy = true ∧
      (after (step sRleEnc)).status.busy = false := ⟨rfl, rfl, rfl⟩

theorem witness_BusyFallsOnlyAtCompletionOrReset_reset :
    step { sRleEnc with turns := [.hardReset] } =
      .next (after (step { sRleEnc with turns := [.hardReset] })) ∧
    ({ sRleEnc with turns := [.hardReset] } : State).status.busy = true ∧
    (after (step { sRleEnc with turns := [.hardReset] })).status.busy = false := ⟨rfl, rfl, rfl⟩

theorem witness_RunningCommandUndisturbed :
    step (withHost (st .w1 0 0x55) sRleEnc) = .next (host (st .w1 0 0x55) sRleEnc) ∧
      (withHost (st .w1 0 0x55) sRleEnc).status.busy = true ∧
      (host (st .w1 0 0x55) sRleEnc).status.busy = true := ⟨rfl, rfl, rfl⟩

theorem witness_DoneNeedsAnIssuedCommand_done :
    step sRleEnc = .next (after (step sRleEnc)) ∧ sRleEnc.status.done = false ∧
      (after (step sRleEnc)).status.done = true := ⟨rfl, rfl, rfl⟩

theorem witness_DoneNeedsAnIssuedCommand_busy :
    step (withHost (cmdLine .psnr) base) = .next (host (cmdLine .psnr) base) ∧
      (withHost (cmdLine .psnr) base).status.busy = false ∧
      (host (cmdLine .psnr) base).status.busy = true := ⟨rfl, rfl, rfl⟩

/-- The block with HERR set. -/
def sHerr : State := { base with status := { base.status with herr := true } }

theorem witness_HerrStaysUntilCleared :
    step (withHost clr sHerr) = .next (host clr sHerr) ∧ (withHost clr sHerr).status.herr = true ∧
      (host clr sHerr).status.herr = false := ⟨rfl, rfl, rfl⟩

theorem witness_HerrStaysUntilCleared_reset :
    step (withHost (wr .ctrl 4) sHerr) = .next (host (wr .ctrl 4) sHerr) ∧
      (withHost (wr .ctrl 4) sHerr).status.herr = true ∧
      (host (wr .ctrl 4) sHerr).status.herr = false := ⟨rfl, rfl, rfl⟩

/-- A command running with the interrupt enabled. -/
def sIe : State := { sRleEnc with ctrl := { ie := true, heie := false } }

theorem witness_CompletionAssertsIrq :
    sIe.status.busy = true ∧ EngineMovesNext sIe ∧ step sIe = .next (after (step sIe)) ∧
      sIe.ctrl.ie = true := ⟨rfl, .inl rfl, rfl, rfl⟩

theorem witness_RleEncCompletes :
    WindowReady sRleEnc sRleEnc.latch.len.toNat ∧
      (rleEnc (sourceBytes sRleEnc)).length ≤ sRleEnc.latch.cap.toNat :=
  ⟨windowReady_of_check (by decide +kernel), by decide +kernel⟩

/-- V-ERR-24: an empty source and an empty window at MEM_BYTES. -/
theorem witness_RleEncCompletes_empty :
    WindowReady (running (latch 1 0 0 0x1000 0) [])
        (running (latch 1 0 0 0x1000 0) []).latch.len.toNat ∧
      (rleEnc (sourceBytes (running (latch 1 0 0 0x1000 0) []))).length ≤
        (running (latch 1 0 0 0x1000 0) []).latch.cap.toNat :=
  ⟨windowReady_of_check (by decide +kernel), by decide +kernel⟩

theorem witness_RleDecCompletes :
    sRleDec.latch.len.toNat % 2 = 0 ∧ WindowReady sRleDec sRleDec.latch.len.toNat ∧
      (rleDec (sourceBytes sRleDec)).length ≤ sRleDec.latch.cap.toNat :=
  ⟨by decide +kernel, windowReady_of_check (by decide +kernel), by decide +kernel⟩

theorem witness_DctCompletes :
    sDct.latch.dst.toNat % 8 = 0 ∧ WindowReady sDct sDct.latch.len.toNat ∧
      8 * sDct.latch.len.toNat ≤ sDct.latch.cap.toNat :=
  ⟨by decide +kernel, windowReady_of_check (by decide +kernel), by decide +kernel⟩

theorem witness_IdctCompletes :
    sIdct.latch.src.toNat % 8 = 0 ∧ WindowReady sIdct (8 * sIdct.latch.len.toNat) ∧
      sIdct.latch.len.toNat ≤ sIdct.latch.cap.toNat :=
  ⟨by decide +kernel, windowReady_of_check (by decide +kernel), by decide +kernel⟩

theorem witness_IdctTCompletes :
    sIdctT.latch.src.toNat % 8 = 0 ∧ WindowReady sIdctT (8 * sIdctT.latch.len.toNat) ∧
      sIdctT.latch.len.toNat ≤ sIdctT.latch.cap.toNat :=
  ⟨by decide +kernel, windowReady_of_check (by decide +kernel), by decide +kernel⟩

theorem witness_QuantCompletes :
    0 < sQuant.latch.q.toInt ∧ sQuant.latch.src.toNat % 8 = 0 ∧ sQuant.latch.dst.toNat % 8 = 0 ∧
      WindowReady sQuant (8 * sQuant.latch.len.toNat) ∧
      8 * sQuant.latch.len.toNat ≤ sQuant.latch.cap.toNat :=
  ⟨by decide +kernel, by decide +kernel, by decide +kernel,
    windowReady_of_check (by decide +kernel), by decide +kernel⟩

theorem witness_PsnrCompletes :
    RegionIn sPsnr.mem.size sPsnr.latch.src.toNat sPsnr.latch.len.toNat ∧
      RegionIn sPsnr.mem.size sPsnr.latch.src2.toNat sPsnr.latch.len.toNat :=
  ⟨.inr (by decide +kernel), .inr (by decide +kernel)⟩

theorem witness_ErrorCompletionIsPrecise :
    sIllegal.status.busy = true ∧ EngineMovesNext sIllegal ∧
      step sIllegal = .next (after (step sIllegal)) ∧
      (after (step sIllegal)).status.errcode ≠ 0 := ⟨rfl, .inl rfl, rfl, by decide +kernel⟩

theorem witness_IllegalWordEndsInError :
    sIllegal.status.busy = true ∧ EngineMovesNext sIllegal ∧
      ∀ i, decode sIllegal.latch.cmd ≠ .ok i :=
  ⟨rfl, .inl rfl, by intro i; cases i <;> decide⟩

/-- V-ERR-4, V-ERR-5, V-ERR-6: zero, -1 and the most negative quality. -/
theorem witness_QuantRejectsQuality :
    (running (latch 5 0x100 4 0x200 32 0) []).latch.q.toInt ≤ 0 ∧
    (running (latch 5 0x100 4 0x200 32 0xFFFFFFFF) []).latch.q.toInt ≤ 0 ∧
    (running (latch 5 0x100 4 0x200 32 0x80000000) []).latch.q.toInt ≤ 0 := by decide +kernel

theorem witness_QuantRejectsQuality_only :
    exec .quant (running (latch 5 0x100 4 0x200 32 0) []) =
      .next (after (exec .quant (running (latch 5 0x100 4 0x200 32 0) []))) ∧
    codeAfter (exec .quant (running (latch 5 0x100 4 0x200 32 0) [])) = 2 := ⟨rfl, by decide +kernel⟩

theorem witness_RleDecRejectsOddLength :
    (running (latch 2 0 1 0x200 32) []).latch.len.toNat % 2 = 1 ∧
    (running (latch 2 0 0xFFFFFFFF 0x200 32) []).latch.len.toNat % 2 = 1 ∧
    exec .rleDec (running (latch 2 0 1 0x200 32) []) =
      .next (after (exec .rleDec (running (latch 2 0 1 0x200 32) []))) ∧
    codeAfter (exec .rleDec (running (latch 2 0 1 0x200 32) [])) = 3 :=
  ⟨by decide +kernel, by decide +kernel, rfl, by decide +kernel⟩

theorem witness_MisalignedCoefficients :
    (running (latch 3 0 0 0x101 0) []).latch.dst.toNat % 8 ≠ 0 ∧
    (running (latch 4 0x104 0 0 0) []).latch.src.toNat % 8 ≠ 0 ∧
    0 < (running (latch 5 0x107 4 0x201 32 1) []).latch.q.toInt ∧
    (running (latch 5 0x107 4 0x201 32 1) []).latch.src.toNat % 8 ≠ 0 ∧
    (running (latch 5 0x107 4 0x201 32 1) []).latch.dst.toNat % 8 ≠ 0 := by decide +kernel

/-- V-ERR-13: the source one byte past MEM. -/
theorem witness_RegionOutsideMemory_source :
    ParametersReady .rleEnc (running (latch 1 0xFFD 4 0x100 8) []) ∧
    ¬ RegionIn (running (latch 1 0xFFD 4 0x100 8) []).mem.size
      (running (latch 1 0xFFD 4 0x100 8) []).latch.src.toNat
      (sourceLen .rleEnc (running (latch 1 0xFFD 4 0x100 8) [])) :=
  ⟨trivial, by unfold RegionIn; decide +kernel⟩

/-- PSNR's second source one byte past MEM. -/
theorem witness_RegionOutsideMemory_source2 :
    ParametersReady .psnr (running (latch 6 0 4 0 0 0 0xFFD) []) ∧
    ¬ RegionIn (running (latch 6 0 4 0 0 0 0xFFD) []).mem.size
      (running (latch 6 0 4 0 0 0 0xFFD) []).latch.src2.toNat
      (running (latch 6 0 4 0 0 0 0xFFD) []).latch.len.toNat :=
  ⟨trivial, by unfold RegionIn; decide +kernel⟩

/-- V-ERR-14: the window at the last address does not wrap. -/
theorem witness_RegionOutsideMemory_window :
    ParametersReady .rleEnc (running (latch 1 0 4 0xFFFFFFFF 1) []) ∧ Instr.rleEnc ≠ .psnr ∧
    ¬ RegionIn (running (latch 1 0 4 0xFFFFFFFF 1) []).mem.size
      (running (latch 1 0 4 0xFFFFFFFF 1) []).latch.dst.toNat
      (running (latch 1 0 4 0xFFFFFFFF 1) []).latch.cap.toNat :=
  ⟨trivial, by decide, by unfold RegionIn; decide +kernel⟩

/-- RANGE from the source of V-ERR-13. -/
theorem witness_RegionOutsideMemory_only :
    exec .rleEnc (running (latch 1 0xFFD 4 0x100 8) []) =
      .next (after (exec .rleEnc (running (latch 1 0xFFD 4 0x100 8) []))) ∧
    codeAfter (exec .rleEnc (running (latch 1 0xFFD 4 0x100 8) [])) = 5 := ⟨rfl, by decide +kernel⟩

/-- A window of one byte on the source's last byte. -/
def sOverlap : State := running (latch 1 0 4 3 1) []

theorem witness_WindowOverlapsSource :
    Instr.rleEnc ≠ .psnr ∧ ParametersReady .rleEnc sOverlap ∧
    RegionIn sOverlap.mem.size sOverlap.latch.src.toNat (sourceLen .rleEnc sOverlap) ∧
    RegionIn sOverlap.mem.size sOverlap.latch.dst.toNat sOverlap.latch.cap.toNat ∧
    ¬ RegionsApart sOverlap.latch.dst.toNat sOverlap.latch.cap.toNat sOverlap.latch.src.toNat
      (sourceLen .rleEnc sOverlap) :=
  ⟨by decide, trivial, .inr (by decide +kernel), .inr (by decide +kernel),
    fun h => h 3 ⟨⟨by decide +kernel, by decide +kernel⟩, ⟨by decide +kernel, by decide +kernel⟩⟩⟩

theorem witness_WindowOverlapsSource_psnr : exec .psnr sPsnr = .next (after (exec .psnr sPsnr)) := rfl

/-- V-ERR-22: one byte short. -/
theorem witness_OutputExceedsCapacity :
    Instr.dct ≠ .psnr ∧ ParametersReady .dct (running (latch 3 0 4 0x100 31) []) ∧
    WindowReady (running (latch 3 0 4 0x100 31) [])
      (sourceLen .dct (running (latch 3 0 4 0x100 31) [])) ∧
    (running (latch 3 0 4 0x100 31) []).latch.cap.toNat <
      outputLen .dct (running (latch 3 0 4 0x100 31) []) :=
  ⟨by decide, by unfold ParametersReady; decide +kernel,
    windowReady_of_check (by decide +kernel), by decide +kernel⟩

/-- The address after the last stored byte, the source's first and last byte, and an error. -/
theorem witness_CompletionLeavesOperands :
    exec .rleEnc sRleEnc = .next (after (exec .rleEnc sRleEnc)) ∧
    ¬ InRegion sRleEnc.latch.dst.toNat (after (exec .rleEnc sRleEnc)).outLen.toNat 0x104 ∧
    InRegion sRleEnc.latch.src.toNat (sourceLen .rleEnc sRleEnc) 0 ∧
    InRegion sRleEnc.latch.src.toNat (sourceLen .rleEnc sRleEnc) 3 ∧
    exec .rleEnc sOverlap = .next (after (exec .rleEnc sOverlap)) ∧
    (after (exec .rleEnc sOverlap)).status.err = true :=
  ⟨rfl, by unfold InRegion; decide +kernel, by unfold InRegion; decide +kernel,
    by unfold InRegion; decide +kernel, rfl, by decide +kernel⟩

theorem witness_QuantRejectsQuality_others :
    Instr.psnr ≠ .quant ∧ exec .psnr sPsnr = .next (after (exec .psnr sPsnr)) := ⟨by decide, rfl⟩

theorem witness_UnreadOperandsDoNotMatter :
    exec .psnr sPsnr = .next (after (exec .psnr sPsnr)) ∧
    exec .rleEnc sRleEnc = .next (after (exec .rleEnc sRleEnc)) ∧ Instr.rleEnc ≠ .psnr :=
  ⟨rfl, rfl, by decide⟩

/-- V-REG-3, V-REG-4 and the first offset past MEMSZ. -/
theorem witness_RegReadReturnsRegister :
    (Width.w2 ≠ .w4 ∨ (0x004 : BitVec 12).toNat % 4 ≠ 0 ∨ 0x030 < (0x004 : BitVec 12).toNat) ∧
    (Width.w4 ≠ .w4 ∨ (0x006 : BitVec 12).toNat % 4 ≠ 0 ∨ 0x030 < (0x006 : BitVec 12).toNat) ∧
    (Width.w4 ≠ .w4 ∨ (0x034 : BitVec 12).toNat % 4 ≠ 0 ∨ 0x030 < (0x034 : BitVec 12).toNat) := by
  decide

/-- V-REG-6, a misaligned offset, and the last unmapped offset. -/
theorem witness_RegWriteRefusals :
    (Width.w8 ≠ .w4 ∨ (0x00C : BitVec 12).toNat % 4 ≠ 0 ∨ 0x030 < (0x00C : BitVec 12).toNat) ∧
    (Width.w4 ≠ .w4 ∨ (0x00D : BitVec 12).toNat % 4 ≠ 0 ∨ 0x030 < (0x00D : BitVec 12).toNat) ∧
    (Width.w4 ≠ .w4 ∨ (0xFFC : BitVec 12).toNat % 4 ≠ 0 ∨ 0x030 < (0xFFC : BitVec 12).toNat) := by
  decide

/-- V-REG-7 and V-REG-8. -/
theorem witness_CtrlWriteEffect :
    (0x7 : BitVec 64).getLsbD 2 = true ∧ (0xFFFFFFFB : BitVec 64).getLsbD 2 = false := by decide

theorem witness_IssueLatchesOperands : base.status.busy = false := rfl

theorem witness_CmdWriteWhileBusyIgnored : sDct.status.busy = true := rfl

/-- V-MEM-6, V-MEM-7, V-MEM-12: the last eight bytes, one past them, and a locked MEM. -/
theorem witness_HostMemReadValue :
    (base.status.busy = false ∧ (0xFF8 : BitVec 32).toNat + Width.w8.bytes ≤ base.mem.size) ∧
    base.mem.size < (0xFF9 : BitVec 32).toNat + Width.w8.bytes ∧ sDct.status.busy = true := by
  decide +kernel

/-- V-MEM-6, V-MEM-10, V-MEM-13, and an address outside the stored bytes. -/
theorem witness_HostMemWriteStores :
    (base.status.busy = false ∧ (0xFF8 : BitVec 32).toNat + Width.w8.bytes ≤ base.mem.size) ∧
    base.mem.size < (0xFFF : BitVec 32).toNat + Width.w2.bytes ∧ sDct.status.busy = true ∧
    0 < Width.w8.bytes ∧ 7 < Width.w8.bytes ∧ ¬ InRegion 0xFF8 Width.w8.bytes 0xFF7 := by
  unfold InRegion
  decide +kernel

theorem witness_StoreThenLoad :
    base.status.busy = false ∧ (0xFF8 : BitVec 32).toNat + Width.w8.bytes ≤ base.mem.size ∧
      HostDoes (.memWrite 0xFF8 .w8 0x0102030405060708) base
        (host (.memWrite 0xFF8 .w8 0x0102030405060708) base) :=
  ⟨rfl, by decide +kernel, rfl⟩

/-- The last byte of a coefficient, and reads of every width that end at the end of MEM. -/
theorem witness_CoefficientByteOrder :
    7 < 8 ∧ base.status.busy = false ∧
    ((0xFFF : BitVec 32).toNat = 0xFF8 + 7 ∧ 7 + Width.w1.bytes ≤ 8 ∧
      (0xFFF : BitVec 32).toNat + Width.w1.bytes ≤ base.mem.size) ∧
    ((0xFFE : BitVec 32).toNat = 0xFF8 + 6 ∧ 6 + Width.w2.bytes ≤ 8 ∧
      (0xFFE : BitVec 32).toNat + Width.w2.bytes ≤ base.mem.size) ∧
    ((0xFFC : BitVec 32).toNat = 0xFF8 + 4 ∧ 4 + Width.w4.bytes ≤ 8 ∧
      (0xFFC : BitVec 32).toNat + Width.w4.bytes ≤ base.mem.size) ∧
    ((0xFF8 : BitVec 32).toNat = 0xFF8 + 0 ∧ 0 + Width.w8.bytes ≤ 8 ∧
      (0xFF8 : BitVec 32).toNat + Width.w8.bytes ≤ base.mem.size) := by decide +kernel

/-- Idle, and running with the addresses on either side of the window. -/
theorem witness_SoftResetEffect :
    (4 : BitVec 64).getLsbD 2 = true ∧ base.status.busy = false ∧ sDct.status.busy = true ∧
    ¬ InRegion sDct.latch.dst.toNat sDct.latch.cap.toNat 7 ∧
    ¬ InRegion sDct.latch.dst.toNat sDct.latch.cap.toNat 40 := by
  unfold InRegion
  decide +kernel

theorem witness_HardResetEffect :
    ({ base with turns := [.hardReset, .engine] } : State).turns = .hardReset :: [.engine] := rfl

theorem witness_IdleAfterReset :
    NextResets (withHost (wr .ctrl 4) sIe) ∧
      step (withHost (wr .ctrl 4) sIe) = .next (host (wr .ctrl 4) sIe) :=
  ⟨.inr ⟨4, ⟨[], rfl⟩, by decide⟩, rfl⟩

theorem witness_IdleAfterReset_input :
    NextResets { sIe with turns := [.hardReset] } ∧
      step { sIe with turns := [.hardReset] } =
        .next (after (step { sIe with turns := [.hardReset] })) := ⟨.inl ⟨[], rfl⟩, rfl⟩

theorem witness_StepKeepsInvariant : Inv sDct ∧ step sDct = .next (after (step sDct)) :=
  ⟨⟨by decide +kernel, by unfold StatusLegal; decide, fun _ => rfl, by unfold DrawsFresh; decide⟩, rfl⟩

theorem witness_MemorySizeIsConstant :
    step sDct = .next (after (step sDct)) ∧ sDct.mem.wf := ⟨rfl, by decide +kernel⟩

/-- V-SRC-1 on the hardware: encode to 0x100, decode the 4 bytes into 0x200. -/
theorem witness_RleRoundTripOnHardware :
    exec .rleEnc sRleEnc = .next (after (exec .rleEnc sRleEnc)) ∧
    (after (exec .rleEnc sRleEnc)).status.err = false ∧
    RegionIn sRleEnc.mem.size (0x200 : Word).toNat (4 : Word).toNat ∧
    RegionsApart (0x200 : Word).toNat (4 : Word).toNat sRleEnc.latch.dst.toNat
      (after (exec .rleEnc sRleEnc)).outLen.toNat ∧
    sRleEnc.latch.len.toNat ≤ (4 : Word).toNat :=
  ⟨rfl, by decide +kernel, .inr (by decide +kernel),
    (disjoint_iff ⟨0x200, 4⟩ ⟨0x100, (after (exec .rleEnc sRleEnc)).outLen.toNat⟩).1 (by decide +kernel),
    by decide +kernel⟩

theorem witness_RleRoundTripOnHardware_stream (X : List Byte) : [1] ≠ rleEnc X := by
  intro h
  cases X with
  | nil => cases h
  | cons x xs =>
    have : ∀ (v : Byte) (r : Nat) (ys : List Byte), 2 ≤ (rleEncFrom v r ys).length := by
      intro v r ys
      induction ys generalizing v r with
      | nil => exact Nat.le_refl 2
      | cons y ys ih =>
        unfold rleEncFrom
        split
        · exact ih _ _
        · simp
    have h2 := this x 1 xs
    rw [show rleEncFrom x 1 xs = [1] from h.symm] at h2
    exact absurd h2 (by decide)

/-- A full run followed by the same value: both pairs of V-RLE-5. -/
theorem witness_RleStreamProperties :
    2 * 0 + 3 < (rleEnc (List.replicate 256 0x63)).length ∧
    (rleEnc (List.replicate 256 0x63)).getD 1 0 = (rleEnc (List.replicate 256 0x63)).getD 3 0 := by
  decide +kernel

theorem witness_PsnrIdentityAndSymmetry : ([1] : List Byte).length = ([0] : List Byte).length := rfl

theorem witness_SquaredErrorSumIsExact :
    ([0xFF] : List Byte).length = ([0] : List Byte).length ∧ ([0xFF] : List Byte).length ≤ 2 ^ 31 ∧
    0 < ([0xFF] : List Byte).length ∧ sumSquares [0xFF] [0] ≠ 0 := by decide +kernel

/-- The three cases, at the ends of the range of q. -/
theorem witness_QuantIdempotentWithinBound :
    ((1 : Int) ≤ 1 ∧ (1 : Int) < 2 ^ 31 ∧ isNaN (quantOne 1 0x7FF0000000000001) = true) ∧
    ((1 : Int) ≤ 2147483647 ∧ (2147483647 : Int) < 2 ^ 31 ∧
      isInf (quantOne 2147483647 0x7FEFFFFFFFFFFFFF) = true) ∧
    ((1 : Int) ≤ 10 ∧ (10 : Int) < 2 ^ 31 ∧
      fmag (quantOne 10 0x402E000000000000) ≤ 2 ^ 53 * funit) := by decide +kernel

theorem witness_ConversionRoundsAndClamps :
    isNaN 0x7FF8000000000000 = true ∧ isInf 0xFFF0000000000000 = true ∧
    (isFinite 0xBFE0000000000000 = true ∧ fsign 0xBFE0000000000000 = true) ∧
    (isFinite 0x405FE00000000000 = true ∧ fsign 0x405FE00000000000 = false) := by decide +kernel

theorem witness_ArithmeticRoundsOnce :
    isFinite fOne = true ∧ isFinite fTen = true ∧ fval fOne + fval fTen ≠ 0 ∧ fmag fTen ≠ 0 := by
  decide +kernel

theorem witness_SquareRootRoundsOnce :
    isFinite fTwo = true ∧ fsign fTwo = false ∧ fmag fTwo ≠ 0 ∧
    (isFinite f128 = true ∧ fmag (fsqrt fTwo) < fmag f128) ∧
    (isFinite fOne = true ∧ fmag fOne < fmag (fsqrt fTwo)) := by decide +kernel

/-- The shortest sequence, and the last indices of the longest. -/
theorem witness_TransformParameters :
    (0 < 1 ∧ 1 ≤ 2 ^ 31) ∧ (2 ^ 31 - 1 < 2 ^ 31 ∧ 2 ^ 31 ≤ 2 ^ 31) := by norm_num

theorem witness_TransformSumsAscend :
    0 < ([200] : List Byte).length ∧ 0 < ([0x4052000000000000] : List F64).length := by decide

theorem witness_FlatBufferTransformsToZero :
    3 ≤ 2 ^ 31 ∧ ∀ x : F64, isFinite ((fun _ => fOne : F64 → F64) x) = true :=
  ⟨by norm_num, fun _ => (by decide : isFinite fOne = true)⟩

theorem witness_SingleSampleTransform : tableCos 0 = 0x3FF0000000000000 := by decide

end Sys2Proof.Tests
end

/-! PROOFS. The register port: what a host read and a host write of a register lead to
(10_state.md R24, R25, R27, R29). -/

namespace Sys2Proof.Machine

/-! ## One host transaction at the register port -/

/-- A host's turn leads to the effect of its transaction and to nothing else. -/
theorem hostDoes_iff (t : Transaction) (s u : State) : HostDoes t s u ↔ hostStep t s = u := by
  rw [HostDoes, step_withHost, Host.Outcome.next.injEq]

/-- R24, a read of a register at its own offset. -/
theorem hostDoes_regRead_offset (r : RegName) (s : State) :
    HostDoes (.regRead r.offset .w4) s
      { s with reply := some ((readReg r s).setWidth 64) } := by
  rw [hostDoes_iff, hostStep, regRead, accessedReg_offset]
  rfl

/-- R24, a read that reaches no register. -/
theorem hostDoes_regRead_unmapped {off : BitVec 12} {w : Width} (h : accessedReg off w = none)
    (s : State) :
    HostDoes (.regRead off w) s (withReply (some 0) (hostError s)) := by
  rw [hostDoes_iff, hostStep, regRead, h]

/-- R25, a write to a register at its own offset: the register's write effect, with no reply. -/
theorem hostDoes_regWrite_offset (r : RegName) (v : BitVec 64) (s : State) :
    HostDoes (.regWrite r.offset .w4 v) s (withReply none (writeReg r (v.setWidth 32) s)) := by
  rw [hostDoes_iff, hostStep, regWrite, accessedReg_offset]

/-- A host access error that answers `r` is a refused access in the sense of the statements. -/
theorem refusedAccess_hostError (r : Option (BitVec 64)) (s : State) :
    RefusedAccess r s (withReply r (hostError s)) := rfl

/-! ## The register map -/

/-- The thirteen registers in the order of their offsets (R23). -/
def registerMap : List RegName :=
  [.ctrl, .status, .cmd, .len, .srcAddr, .src2Addr, .dstAddr, .dstCap, .quality,
    .outLen, .psnrLo, .psnrHi, .memsz]

/-- Settles O31. A refused read is one that reaches no register, and the thirteen offsets and values of
the statement are the register map's offsets and read values. -/
theorem regReadReturnsRegister : Obligations.RegReadReturnsRegister := by
  intro s
  constructor
  · intro off w hbad
    have hnone : accessedReg off w = none := (accessedReg_none_iff off w).2 hbad
    exact ⟨_, hostDoes_regRead_unmapped hnone s, refusedAccess_hostError _ s⟩
  · intro p hp
    have hmap : p ∈ registerMap.map fun r => (r.offset, readReg r s) := hp
    obtain ⟨r, -, rfl⟩ := List.mem_map.1 hmap
    exact hostDoes_regRead_offset r s

/-! ## The bits of a written word -/

/-- A bit below 32 of the value a host writes is that bit of the word the register takes. -/
theorem getLsbD_writtenWord (v : BitVec 64) {i : Nat} (h : i < 32) :
    (v.setWidth 32).getLsbD i = v.getLsbD i := by
  simp [h]

/-- R27 with bit 2 set: the soft reset. -/
theorem writeCtrl_of_srst {v : Word} (h : v.getLsbD 2 = true) (s : State) :
    writeCtrl v s = softReset s := if_pos h

/-- R27 with bit 2 clear: the two enables are written. -/
theorem writeCtrl_of_not_srst {v : Word} (h : v.getLsbD 2 = false) (s : State) :
    writeCtrl v s = { s with ctrl := Ctrl.ofWord v } := if_neg (ne_true_of_eq_false h)

/-- R27's enables, read off the value the host writes. -/
theorem ctrlOfWord_setWidth (v : BitVec 64) :
    Ctrl.ofWord (v.setWidth 32) = { ie := v.getLsbD 0, heie := v.getLsbD 1 } := by
  simp only [Ctrl.ofWord, getLsbD_writtenWord v (show 0 < 32 by decide),
    getLsbD_writtenWord v (show 1 < 32 by decide)]

/-- Settles O34. The split is on bit 2 of the word CTRL takes. -/
theorem ctrlWriteEffect : Obligations.CtrlWriteEffect := by
  intro s v
  have hwrite := hostDoes_regWrite_offset .ctrl v s
  rw [writeReg] at hwrite
  have hbit : (v.setWidth 32).getLsbD 2 = v.getLsbD 2 := getLsbD_writtenWord v (by decide)
  constructor
  · intro hset
    rwa [writeCtrl_of_srst (hbit.trans hset)] at hwrite
  · intro hclear
    rwa [writeCtrl_of_not_srst (hbit.trans hclear), ctrlOfWord_setWidth] at hwrite

/-- R29, read off the value the host writes: a set bit clears its flag, a clear bit keeps it. -/
theorem Status.clear_setWidth (v : BitVec 64) (t : Status) :
    t.clear (v.setWidth 32) =
      { busy := t.busy
        done := if v.getLsbD 1 then false else t.done
        err := if v.getLsbD 2 then false else t.err
        errcode := if v.getLsbD 2 then 0 else t.errcode
        herr := if v.getLsbD 8 then false else t.herr } := by
  have keepUnlessSet (flag bit : Bool) : (flag && !bit) = if bit then false else flag := by
    cases bit <;> simp
  simp only [Status.clear, keepUnlessSet, getLsbD_writtenWord v (show 1 < 32 by decide),
    getLsbD_writtenWord v (show 2 < 32 by decide), getLsbD_writtenWord v (show 8 < 32 by decide)]

/-- Settles O35. STATUS takes its write-1-to-clear value, and the write effect touches no other field. -/
theorem statusWriteOneToClear : Obligations.StatusWriteOneToClear := by
  intro s v
  have hwrite := hostDoes_regWrite_offset .status v s
  rwa [writeReg, Status.clear_setWidth] at hwrite

end Sys2Proof.Machine

/-! PROOFS. The memory port: what a host read and a host write of MEM lead to
(20_memory.md R62 to R65). -/

namespace Sys2Proof.Machine

/-! ## Refusal at the memory port -/

/-- R63 to R65, the accesses the memory port turns away. -/
theorem memRefused_iff (a : BitVec 32) (w : Width) (s : State) :
    memRefused a w s = true ↔ s.status.busy = true ∨ s.mem.size < a.toNat + w.bytes := by
  simp [memRefused]

/-- R63 to R65, the accesses the memory port accepts. -/
theorem memRefused_eq_false {a : BitVec 32} {w : Width} {s : State} (hidle : s.status.busy = false)
    (hfit : a.toNat + w.bytes ≤ s.mem.size) : memRefused a w s = false := by
  simp [memRefused, hidle, hfit]

/-! ## One host transaction at the memory port -/

/-- R63, a refused read. -/
theorem hostDoes_memRead_of_refused {a : BitVec 32} {w : Width} {s : State}
    (h : memRefused a w s = true) :
    HostDoes (.memRead a w) s (withReply (some 0) (hostError s)) := by
  rw [hostDoes_iff, hostStep, hostMemRead, if_pos h]

/-- R63, an accepted read: the number in MEM is the answer. -/
theorem hostDoes_memRead_of_accepted {a : BitVec 32} {w : Width} {s : State}
    (h : memRefused a w s = false) :
    HostDoes (.memRead a w) s
      { s with reply := some (BitVec.ofNat 64 (s.mem.readNat a.toNat w.bytes)) } := by
  rw [hostDoes_iff, hostStep, hostMemRead, if_neg (ne_true_of_eq_false h)]
  rfl

/-- R64, a refused write. -/
theorem hostDoes_memWrite_of_refused {a : BitVec 32} {w : Width} {s : State}
    (h : memRefused a w s = true) (v : BitVec 64) :
    HostDoes (.memWrite a w v) s (withReply none (hostError s)) := by
  rw [hostDoes_iff, hostStep, hostMemWrite, if_pos h]

/-- R64, an accepted write: MEM takes the number, and there is no reply. -/
theorem hostDoes_memWrite_of_accepted {a : BitVec 32} {w : Width} {s : State}
    (h : memRefused a w s = false) (v : BitVec 64) :
    HostDoes (.memWrite a w v) s
      { s with mem := s.mem.writeNat a.toNat w.bytes v.toNat, reply := none } := by
  rw [hostDoes_iff, hostStep, hostMemWrite, if_neg (ne_true_of_eq_false h)]
  rfl

/-! ## The number a host read returns -/

/-- `MemRead` as a sum: byte `k` has weight `256 ^ k` (R62). -/
theorem readNat_eq_sum (m : Memory) (a n : Nat) :
    m.readNat a n = ∑ k ∈ Finset.range n, (m.read (a + k)).toNat * 256 ^ k := by
  induction n with
  | zero => rfl
  | succ n ih =>
    have hlast : m.readNat (a + n) 1 = (m.read (a + n)).toNat := by simp [Memory.readNat]
    rw [readNat_split, hlast, ih, Finset.sum_range_succ, Nat.mul_comm (256 ^ n)]

/-- No host access is wider than eight bytes (R63, R64). -/
theorem Width.bytes_le_eight (w : Width) : w.bytes ≤ 8 := by
  cases w <;> decide

/-- The number of a host access fits the 64-bit reply, so the reply does not cut it. -/
theorem toNat_ofNat_readNat (m : Memory) (a : Nat) (w : Width) :
    (BitVec.ofNat 64 (m.readNat a w.bytes)).toNat = m.readNat a w.bytes := by
  rw [BitVec.toNat_ofNat]
  apply Nat.mod_eq_of_lt
  calc m.readNat a w.bytes < 256 ^ w.bytes := readNat_lt m a w.bytes
    _ ≤ 256 ^ 8 := Nat.pow_le_pow_right (by decide) w.bytes_le_eight
    _ = 2 ^ 64 := by decide

/-- Settles O38. The two cases are those of `memRefused`; the accepted read returns `readNat`, which is
the sum. -/
theorem hostMemReadValue : Obligations.HostMemReadValue := by
  intro s a w
  constructor
  · intro hbad
    have href : memRefused a w s = true := (memRefused_iff a w s).2 hbad
    exact ⟨_, hostDoes_memRead_of_refused href, refusedAccess_hostError _ s⟩
  · intro hidle hfit
    refine ⟨_, hostDoes_memRead_of_accepted (memRefused_eq_false hidle hfit), ?_⟩
    rw [toNat_ofNat_readNat, readNat_eq_sum]

/-! ## The bytes a host write stores -/

/-- Byte `k` of a number's little-endian bytes (R12, R62). -/
theorem leBytes_getElem (n v k : Nat) (h : k < (leBytes n v).length) :
    (leBytes n v)[k] = BitVec.ofNat 8 (v / 256 ^ k) := by
  induction n generalizing v k with
  | zero => simp [leBytes] at h
  | succ n ih =>
    cases k with
    | zero => simp [leBytes]
    | succ k =>
      simp only [leBytes, List.getElem_cons_succ]
      rw [ih, Nat.div_div_eq_div_mul, ← Nat.pow_succ']

/-- Byte `k` of the value a host writes is its bits `8k + 7 : 8k` (R62). -/
theorem ofNat_div_eq_extractLsb' (v : BitVec 64) (k : Nat) :
    BitVec.ofNat 8 (v.toNat / 256 ^ k) = v.extractLsb' (8 * k) 8 := by
  rw [BitVec.extractLsb', Nat.shiftRight_eq_div_pow, Nat.pow_mul]

@[simp] theorem writeNat_size (m : Memory) (a n v : Nat) : (m.writeNat a n v).size = m.size :=
  writeBytes_size m a _

/-- A number stored inside MEM reads back byte for byte. -/
theorem read_writeNat_inside (m : Memory) {a n k : Nat} (v : Nat) (hk : k < n)
    (hfit : a + n ≤ m.size) : (m.writeNat a n v).read (a + k) = BitVec.ofNat 8 (v / 256 ^ k) := by
  have hlen : k < (leBytes n v).length := by rwa [leBytes_length]
  rw [Memory.writeNat, read_writeBytes_inside m a k _ hlen (by omega), leBytes_getElem]

/-- A stored number leaves every address outside its region alone. -/
theorem read_writeNat_outside (m : Memory) {a n x : Nat} (v : Nat) (hx : ¬ InRegion a n x) :
    (m.writeNat a n v).read x = m.read x := by
  rw [InRegion] at hx
  exact read_writeBytes_outside m a x _ (by rw [leBytes_length]; omega)

/-- Settles O39. The two cases are those of `memRefused`; the accepted write is `writeNat`, with its
bytes inside the access and its frame outside it. -/
theorem hostMemWriteStores : Obligations.HostMemWriteStores := by
  intro s a w v
  constructor
  · intro hbad
    have href : memRefused a w s = true := (memRefused_iff a w s).2 hbad
    exact ⟨_, hostDoes_memWrite_of_refused href v, refusedAccess_hostError _ s⟩
  · intro hidle hfit
    refine ⟨_, hostDoes_memWrite_of_accepted (memRefused_eq_false hidle hfit) v, rfl,
      writeNat_size .., ?_, ?_⟩
    · intro k hk
      exact (read_writeNat_inside s.mem _ hk hfit).trans (ofNat_div_eq_extractLsb' v k)
    · intro x hx
      exact read_writeNat_outside s.mem _ hx

end Sys2Proof.Machine

/-! PROOFS. The decoder against the opcode map (30_encoding.md R81, R83): what each of its three
tests answers, and that a word with a command's fields decodes to that command. -/

namespace Sys2Proof

/-! ## Illegal words -/

theorem decodeFields_of_reserved {c : CmdWord} (hrsv : c.reservedClear = false) :
    decodeFields c = .error .reservedBits := by
  simp [decodeFields, hrsv]

theorem decodeFields_of_rounding {c : CmdWord} (hrsv : c.reservedClear = true)
    (hrnd : c.roundingAllowed = false) : decodeFields c = .error .roundingBit := by
  simp [decodeFields, hrsv, hrnd]

theorem decodeFields_of_undefinedOp {c : CmdWord} (hrsv : c.reservedClear = true)
    (hrnd : c.roundingAllowed = true) (hop : c.opDefined = false) :
    decodeFields c = .error .undefinedOp := by
  simp only [decodeFields, hrsv, hrnd, Bool.true_eq_false, if_false]
  split
  case h_7 => rfl
  all_goals simp_all [CmdWord.opDefined]

theorem CmdWord.opDefined_eq_false_iff (c : CmdWord) :
    c.opDefined = false ↔ c.op = 0 ∨ 7 ≤ c.op.toNat := by
  have hzero : c.op = 0 ↔ c.op.toNat = 0 := BitVec.toNat_inj.symm
  rw [hzero]
  simp only [CmdWord.opDefined, Bool.and_eq_false_iff, decide_eq_false_iff_not]
  omega

/-- The illegal words of R83, as fields. -/
theorem CmdWord.wellFormed_eq_false_iff (c : CmdWord) :
    c.wellFormed = false ↔
      c.rsv ≠ 0 ∨ (c.rnd = true ∧ c.op ≠ 4) ∨ (c.op = 0 ∨ 7 ≤ c.op.toNat) := by
  have hrsv : c.reservedClear = false ↔ c.rsv ≠ 0 := by simp [CmdWord.reservedClear]
  have hrnd : c.roundingAllowed = false ↔ c.rnd = true ∧ c.op ≠ 4 := by
    simp [CmdWord.roundingAllowed]
  rw [CmdWord.wellFormed, Bool.and_eq_false_iff, Bool.and_eq_false_iff, hrsv, hrnd,
    CmdWord.opDefined_eq_false_iff, or_assoc]

/-- Fields that fail any of the three checks are illegal, whichever check fails first. -/
theorem decodeFields_of_not_wellFormed {c : CmdWord} (h : c.wellFormed = false) :
    ∃ e, decodeFields c = .error e := by
  cases hrsv : c.reservedClear with
  | false => exact ⟨_, decodeFields_of_reserved hrsv⟩
  | true =>
    cases hrnd : c.roundingAllowed with
    | false => exact ⟨_, decodeFields_of_rounding hrsv hrnd⟩
    | true =>
      have hop : c.opDefined = false := by simpa [CmdWord.wellFormed, hrsv, hrnd] using h
      exact ⟨_, decodeFields_of_undefinedOp hrsv hrnd hop⟩

/-- R83, for a word. -/
theorem decode_of_illegal {w : Word}
    (h : w.extractLsb' 5 27 ≠ 0 ∨ (w.getLsbD 4 = true ∧ w.extractLsb' 0 4 ≠ 4) ∨
      (w.extractLsb' 0 4 = 0 ∨ 7 ≤ (w.extractLsb' 0 4).toNat)) : ∃ e, decode w = .error e :=
  decodeFields_of_not_wellFormed ((CmdWord.wellFormed_eq_false_iff (cmdFields w)).2 h)

/-! ## Command words -/

theorem decode_encode (i : Instr) : decode (encode i) = .ok i := by
  cases i with
  | rleEnc => exact Laws.EncodeRoundTrip.rleEnc.1
  | rleDec => exact Laws.EncodeRoundTrip.rleDec.1
  | dct => exact Laws.EncodeRoundTrip.dct.1
  | idct => exact Laws.EncodeRoundTrip.idct.1
  | idctT => exact Laws.EncodeRoundTrip.idctT.1
  | quant => exact Laws.EncodeRoundTrip.quant.1
  | psnr => exact Laws.EncodeRoundTrip.psnr.1

/-- The fields of a word determine it, so a word with a command's fields is that command's word. -/
theorem decode_of_fields {w : Word} {i : Instr} (hop : w.extractLsb' 0 4 = (instrFields i).op)
    (hrnd : w.getLsbD 4 = (instrFields i).rnd) (hrsv : w.extractLsb' 5 27 = (instrFields i).rsv) :
    decode w = .ok i := by
  have hfields : cmdFields w = instrFields i := by rw [cmdFields, hop, hrnd, hrsv]
  have hword : w = encode i := by rw [encode, ← hfields, cmdPack_fields]
  rw [hword, decode_encode]

/-- Settles O2. The words of the table are the encoded commands; the illegal words are those of
R83; every other word has RND = 0 wherever OP is not 4, so its OP gives it the fields of a command. -/
theorem decodeFollowsOpcodeMap : Obligations.DecodeFollowsOpcodeMap := by
  refine ⟨⟨decode_encode .rleEnc, decode_encode .rleDec, decode_encode .dct, decode_encode .idct,
    decode_encode .idctT, decode_encode .quant, decode_encode .psnr⟩, fun w => ⟨?_, ?_, ?_⟩⟩
  · exact fun hrsv => decode_of_illegal (.inl hrsv)
  · exact fun hrnd hop => decode_of_illegal (.inr (.inl ⟨hrnd, hop⟩))
  · intro hrsv hallowed
    have hclear {v : BitVec 4} (hop : w.extractLsb' 0 4 = v) (hv : v ≠ 4) : w.getLsbD 4 = false :=
      Bool.eq_false_of_not_eq_true fun hrnd => hv (hop.symm.trans (hallowed hrnd))
    refine ⟨fun hop => ?rleEnc, fun hop => ?rleDec, fun hop => ?dct, fun hop hrnd => ?idct,
      fun hop hrnd => ?idctT, fun hop => ?quant, fun hop => ?psnr, fun hop => ?undefinedOp⟩
    case rleEnc => exact decode_of_fields hop (hclear hop (by decide)) hrsv
    case rleDec => exact decode_of_fields hop (hclear hop (by decide)) hrsv
    case dct => exact decode_of_fields hop (hclear hop (by decide)) hrsv
    case idct => exact decode_of_fields hop hrnd hrsv
    case idctT => exact decode_of_fields hop hrnd hrsv
    case quant => exact decode_of_fields hop (hclear hop (by decide)) hrsv
    case psnr => exact decode_of_fields hop (hclear hop (by decide)) hrsv
    case undefinedOp => exact decode_of_illegal (.inr (.inr hop))

end Sys2Proof

/-! PROOFS. The completion step of 40_command.md R104 as one equation, the reason for each error it can
end with (R105 to R111), what it leaves alone (R114), and the two answers to a CMD write (R100, R101). -/

namespace Sys2Proof.Machine

/-! ## The completion step as one equation -/

/-- The check that only QUANT (R106) or RLE.DEC (R107) makes, before the shared ones. -/
def ownError (i : Instr) (L : Latch) : Option CmdError :=
  match i with
  | .quant => if quality L ≤ 0 then some .invalidParam else none
  | .rleDec => if L.len.toNat % 2 = 1 then some .malformedStream else none
  | _ => none

theorem ownError_quant_eq_none (L : Latch) : ownError .quant L = none ↔ 0 < L.q.toInt := by
  rw [ownError, quality]
  split_ifs with hq
  · simpa using hq
  · simpa using hq

theorem ownError_rleDec_eq_none (L : Latch) :
    ownError .rleDec L = none ↔ L.len.toNat % 2 = 0 := by
  rw [ownError]
  split_ifs with hodd
  · simp [hodd]
  · simpa using hodd

/-- The CAPACITY check of an output (R111). -/
def capacityError (out : List Byte) (L : Latch) : Option CmdError :=
  if L.cap.toNat < out.length then some .capacity else none

/-- The first check of R104 that fails. -/
def firstError (i : Instr) (s : State) : Option CmdError :=
  (ownError i s.latch).or
    ((memoryError (operandsOf i s.latch) s.latch s.mem.size).or
      (capacityError (outputOf i s) s.latch))

/-- `CommitSuccess` of R113 for each command. -/
def commitOf (i : Instr) (s : State) : State :=
  match i with
  | .psnr => commitPsnr (psnrOf s) s
  | _ => commitBytes (outputOf i s) s

theorem completeBytes_eq_elim (o : Operands) (f : Memory → List Byte) (s : State) :
    completeBytes o f s =
      ((memoryError o s.latch s.mem.size).or (capacityError (f s.mem) s.latch)).elim
        (commitBytes (f s.mem) s) (raise · s) := by
  rcases completeBytes_cases o f s with ⟨e, hm, h⟩ | ⟨hm, hcap, h⟩ | ⟨hm, hcap, h⟩
  · simp [h, hm]
  · simp [h, hm, capacityError, hcap]
  · simp [h, hm, capacityError, Nat.not_lt.2 hcap]

/-- R104: a completion is the error of the first check that fails, or the commit. -/
theorem exec_eq (i : Instr) (s : State) :
    exec i s = .next ((firstError i s).elim (commitOf i s) (raise · s)) := by
  cases i with
  | rleEnc => exact congrArg _ (completeBytes_eq_elim ..)
  | dct => exact congrArg _ (completeBytes_eq_elim ..)
  | idct => exact congrArg _ (completeBytes_eq_elim ..)
  | idctT => exact congrArg _ (completeBytes_eq_elim ..)
  | rleDec =>
    rw [exec, execRleDec]
    split
    case isTrue hodd => simp [firstError, ownError, hodd]
    case isFalse heven =>
      rw [completeBytes_eq_elim, firstError, ownError, if_neg heven]
      rfl
  | quant =>
    rw [exec, execQuant]
    split
    case isTrue hq => simp [firstError, ownError, hq]
    case isFalse hq =>
      rw [completeBytes_eq_elim, firstError, ownError, if_neg hq]
      rfl
  | psnr =>
    have hcap : capacityError (outputOf .psnr s) s.latch = none := if_neg (Nat.not_lt_zero _)
    have hown : ownError .psnr s.latch = none := rfl
    rw [exec, execPsnr, firstError, hown, hcap, operandsOf]
    split
    case h_1 e hm => simp [hm]
    case h_2 hm => simp [hm, commitOf, psnrOf]

theorem completesInError_of_firstError {i : Instr} {s : State} {e : CmdError}
    (h : firstError i s = some e) : CompletesInError i s e.code :=
  ⟨raise e s, by rw [exec_eq, h]; rfl, raise_endsInError e s⟩

/-- A check of the command's own comes before every other. -/
theorem firstError_of_ownError {i : Instr} {s : State} {e : CmdError}
    (h : ownError i s.latch = some e) : firstError i s = some e := by
  rw [firstError, h, Option.some_or]

theorem firstError_of_memoryError {i : Instr} {s : State} {e : CmdError}
    (hown : ownError i s.latch = none)
    (h : memoryError (operandsOf i s.latch) s.latch s.mem.size = some e) :
    firstError i s = some e := by
  rw [firstError, hown, h, Option.none_or, Option.some_or]

theorem firstError_of_capacity {i : Instr} {s : State} (hown : ownError i s.latch = none)
    (hmem : memoryError (operandsOf i s.latch) s.latch s.mem.size = none)
    (hcap : s.latch.cap.toNat < (outputOf i s).length) : firstError i s = some .capacity := by
  rw [firstError, hown, hmem, Option.none_or, Option.none_or, capacityError, if_pos hcap]

/-! ## Error codes -/

theorem CmdError.code_inj {e e' : CmdError} : e.code = e'.code ↔ e = e' := by
  cases e <;> cases e' <;> decide

theorem CmdError.code_ne_zero (e : CmdError) : e.code ≠ 0 := by
  cases e <;> decide

/-- The reason for a completion with the code of the error `e`. -/
theorem exec_errcode_cases {i : Instr} {s t : State} {e : CmdError} (h : exec i s = .next t)
    (hcode : t.status.errcode = e.code) :
    (e = .invalidParam ∧ i = .quant ∧ quality s.latch ≤ 0) ∨
      (e = .malformedStream ∧ i = .rleDec ∧ s.latch.len.toNat % 2 = 1) ∨
      memoryError (operandsOf i s.latch) s.latch s.mem.size = some e ∨
      (e = .capacity ∧ i ≠ .psnr ∧ s.latch.cap.toNat < (outputOf i s).length) := by
  obtain ⟨e', rfl, hreason⟩ := exec_error_cases h (hcode ▸ e.code_ne_zero)
  obtain rfl : e' = e := CmdError.code_inj.1 hcode
  exact hreason

/-! ## The shared checks, each with the ones before it passed -/

open scoped Classical in
/-- The shared checks in the order of R104, as facts about addresses. -/
theorem memoryError_eq (o : Operands) (L : Latch) (size : Nat) :
    memoryError o L size =
      if ∃ a ∈ o.aligned, a % 8 ≠ 0 then some .align
      else if ∃ r ∈ o.sources, ¬ RegionIn size r.base r.len then some .range
      else if o.writesMem = true ∧ ¬ RegionIn size L.dst.toNat L.cap.toNat then some .range
      else if o.writesMem = true ∧
          ∃ r ∈ o.sources, ¬ RegionsApart L.dst.toNat L.cap.toNat r.base r.len then some .overlap
      else none := by
  have hwin : (window L).inRange size = true ↔ RegionIn size L.dst.toNat L.cap.toNat :=
    inRange_iff size (window L)
  have happart (r : Region) : (window L).disjoint r = true ↔
      RegionsApart L.dst.toNat L.cap.toNat r.base r.len := disjoint_iff (window L) r
  exact if_congr (by simp) rfl (if_congr (by simp [← inRange_iff]) rfl
    (if_congr (by simp [← hwin]) rfl (if_congr (by simp [← happart]) rfl rfl)))

theorem memoryError_of_misaligned {o : Operands} {L : Latch} {size a : Nat}
    (ha : a ∈ o.aligned) (hbad : a % 8 ≠ 0) : memoryError o L size = some .align := by
  rw [memoryError_eq, if_pos ⟨a, ha, hbad⟩]

theorem memoryError_of_outOfRange {o : Operands} {L : Latch} {size : Nat}
    (haligned : ∀ a ∈ o.aligned, a % 8 = 0)
    (hout : (∃ r ∈ o.sources, ¬ RegionIn size r.base r.len) ∨
      (o.writesMem = true ∧ ¬ RegionIn size L.dst.toNat L.cap.toNat)) :
    memoryError o L size = some .range := by
  rw [memoryError_eq, if_neg (by simpa using haligned)]
  split_ifs with hsrc hwin
  · rfl
  · rfl
  all_goals exact absurd hout (not_or.2 ⟨hsrc, hwin⟩)

theorem memoryError_of_overlap {o : Operands} {L : Latch} {size : Nat}
    (haligned : ∀ a ∈ o.aligned, a % 8 = 0)
    (hsrc : ∀ r ∈ o.sources, RegionIn size r.base r.len) (hwrites : o.writesMem = true)
    (hwin : RegionIn size L.dst.toNat L.cap.toNat)
    (hmeet : ∃ r ∈ o.sources, ¬ RegionsApart L.dst.toNat L.cap.toNat r.base r.len) :
    memoryError o L size = some .overlap := by
  rw [memoryError_eq, if_neg (by simpa using haligned), if_neg (by simpa using hsrc),
    if_neg (fun h => h.2 hwin), if_pos ⟨hwrites, hmeet⟩]

/-- Only a command that writes MEM is checked for OVERLAP (R110). -/
theorem memoryError_overlap {o : Operands} {L : Latch} {size : Nat}
    (h : memoryError o L size = some .overlap) : o.writesMem = true := by
  rw [memoryError_eq] at h
  split_ifs at h with _ _ _ hmeet
  · cases h
  · cases h
  · cases h
  · exact hmeet.1

/-! ## The operand table of R103 -/

theorem writesMem_operandsOf (i : Instr) (L : Latch) :
    (operandsOf i L).writesMem = true ↔ i ≠ .psnr := by
  cases i <;> simp [operandsOf, rleEncOperands, rleDecOperands, dctOperands, idctOperands,
    quantOperands, psnrOperands]

/-- The source regions: the first of every command, and PSNR's second. -/
theorem mem_sources_operandsOf (i : Instr) (s : State) (r : Region) :
    r ∈ (operandsOf i s.latch).sources ↔
      r = ⟨s.latch.src.toNat, sourceLen i s⟩ ∨
        (i = .psnr ∧ r = ⟨s.latch.src2.toNat, s.latch.len.toNat⟩) := by
  cases i <;> simp [operandsOf, rleEncOperands, rleDecOperands, dctOperands, idctOperands,
    quantOperands, psnrOperands, byteRegion, coeffRegion, sourceLen, elemBytes]

/-- The checks before RANGE are the command's own and ALIGN. -/
theorem parametersReady_iff (i : Instr) (s : State) :
    ParametersReady i s ↔
      ownError i s.latch = none ∧ ∀ a ∈ (operandsOf i s.latch).aligned, a % 8 = 0 := by
  cases i with
  | quant => simp [ParametersReady, ownError_quant_eq_none, operandsOf, quantOperands]
  | rleDec => simp [ParametersReady, ownError_rleDec_eq_none, operandsOf, rleDecOperands]
  | rleEnc => simp [ParametersReady, ownError, operandsOf, rleEncOperands]
  | dct => simp [ParametersReady, ownError, operandsOf, dctOperands]
  | idct => simp [ParametersReady, ownError, operandsOf, idctOperands]
  | idctT => simp [ParametersReady, ownError, operandsOf, idctOperands]
  | psnr => simp [ParametersReady, ownError, operandsOf, psnrOperands]

/-! ## The length of an output -/

@[simp] theorem dct_length (cosFn : F64 → F64) (X : List Byte) :
    (dct cosFn X).length = X.length := by
  simp [dct]

@[simp] theorem idct_length (cosFn : F64 → F64) (rnd : Bool) (T : List F64) :
    (idct cosFn rnd T).length = T.length := by
  simp [idct, recon]

@[simp] theorem quant_length (q : Int) (X : List F64) : (quant q X).length = X.length := by
  simp [quant]

theorem outputOf_length (i : Instr) (s : State) : (outputOf i s).length = outputLen i s := by
  cases i <;> simp [outputOf, outputLen, sourceBytes]

/-! ## The earlier checks of CAPACITY -/

/-- For a command that writes MEM, parameters and window that are ready pass every shared check. -/
theorem memoryError_none_of_ready {i : Instr} {s : State} (hi : i ≠ .psnr)
    (hparams : ParametersReady i s) (hready : WindowReady s (sourceLen i s)) :
    memoryError (operandsOf i s.latch) s.latch s.mem.size = none := by
  obtain ⟨-, haligned⟩ := (parametersReady_iff i s).1 hparams
  obtain ⟨hsrc, hwin, hapart⟩ := hready
  have honly (r : Region) (hr : r ∈ (operandsOf i s.latch).sources) :
      r = ⟨s.latch.src.toNat, sourceLen i s⟩ := by
    simpa [hi] using (mem_sources_operandsOf i s r).1 hr
  refine (memoryError_none ..).2 ⟨haligned, fun r hr => ?_, fun _ => hwin, fun _ r hr => ?_⟩
  · exact honly r hr ▸ hsrc
  · exact honly r hr ▸ hapart

/-! ## ILLEGAL_CMD (R105) -/

theorem step_of_engineMovesNext {s : State} (h : EngineMovesNext s) :
    step s = engineTurn (dropTurn s) := by
  rcases step_cases s with ⟨-, hstep⟩ | ⟨_, _, hhost, -⟩ | ⟨_, hreset, -⟩
  · exact hstep
  · simp [EngineMovesNext, hhost] at h
  · simp [EngineMovesNext, hreset] at h

/-- Settles O22. Of the three things the engine's turn can do, BUSY = 1 excludes rest and the word
excludes a command. -/
theorem illegalWordEndsInError : Obligations.IllegalWordEndsInError := by
  intro s hbusy hmoves hillegal
  refine ⟨raise .illegalCmd (dropTurn s), ?_, raise_endsInError .illegalCmd _⟩
  rw [step_of_engineMovesNext hmoves]
  rcases engineTurn_cases (dropTurn s) with ⟨hidle, -⟩ | ⟨-, i, hdec, -⟩ | ⟨-, -, hturn⟩
  · exact absurd hbusy (ne_true_of_eq_false hidle)
  · exact absurd hdec (hillegal i)
  · exact hturn

/-! ## INVALID_PARAM (R106) -/

theorem exec_latch {i : Instr} {s t : State} (h : exec i s = .next t) : t.latch = s.latch := by
  obtain ⟨⟨-, -, -, -, -, -, -, -, -, hlatch, -⟩, -⟩ := exec_frame h
  exact hlatch

/-- A change of LATCH that alters neither the checks of a command nor its commit carries through the
command's completion. -/
theorem exec_withLatch {i : Instr} {s t : State} {L : Latch}
    (herr : firstError i { s with latch := L } = firstError i s)
    (hcommit : commitOf i { s with latch := L } = { commitOf i s with latch := L })
    (h : exec i s = .next t) :
    exec i { s with latch := L } = .next { t with latch := L } := by
  rw [exec_eq] at h ⊢
  obtain rfl := Host.Outcome.next.inj h
  rw [herr, hcommit]
  cases firstError i s <;> rfl

/-- Settles O23. QUANT's own check comes first, no other check has its code, and no other command reads
L.q. -/
theorem quantRejectsQuality : Obligations.QuantRejectsQuality := by
  refine ⟨fun s hq => ?_, fun i s t h hcode => ?_, fun i s t x hi h => ?_⟩
  · have hown : ownError .quant s.latch = some .invalidParam := if_pos hq
    exact completesInError_of_firstError (firstError_of_ownError hown)
  · rcases exec_errcode_cases (e := .invalidParam) h hcode with
      ⟨-, hquant⟩ | ⟨he, -⟩ | hmem | ⟨he, -⟩
    · exact hquant
    · cases he
    · rcases memoryError_some hmem with he | he | he <;> cases he
    · cases he
  · have hL : firstError i { s with latch := { s.latch with q := x } } = firstError i s ∧
        commitOf i { s with latch := { s.latch with q := x } } =
          { commitOf i s with latch := { s.latch with q := x } } := by
      cases i with
      | quant => exact absurd rfl hi
      | _ => exact ⟨rfl, rfl⟩
    rw [exec_latch h]
    exact exec_withLatch hL.1 hL.2 h

/-! ## MALFORMED_STREAM (R107) -/

/-- Settles O24. RLE.DEC's own check comes first, and no other check has its code. -/
theorem rleDecRejectsOddLength : Obligations.RleDecRejectsOddLength := by
  refine ⟨fun s hodd => ?_, fun i s t h hcode => ?_⟩
  · have hown : ownError .rleDec s.latch = some .malformedStream := if_pos hodd
    exact completesInError_of_firstError (firstError_of_ownError hown)
  · rcases exec_errcode_cases (e := .malformedStream) h hcode with
      ⟨he, -⟩ | ⟨-, hrle⟩ | hmem | ⟨he, -⟩
    · cases he
    · exact hrle
    · rcases memoryError_some hmem with he | he | he <;> cases he
    · cases he

/-! ## ALIGN (R108) -/

theorem completesInError_align {i : Instr} {s : State} {a : Nat}
    (hown : ownError i s.latch = none) (ha : a ∈ (operandsOf i s.latch).aligned)
    (hbad : a % 8 ≠ 0) : CompletesInError i s 4 :=
  completesInError_of_firstError
    (firstError_of_memoryError hown (memoryError_of_misaligned ha hbad))

/-- Settles O25. Each address is in the command's "must be 8-aligned" column of R103. -/
theorem misalignedCoefficients : Obligations.MisalignedCoefficients := by
  intro s
  have hquant := (ownError_quant_eq_none s.latch).2
  refine ⟨fun hdst => ?dct, fun hsrc => ⟨?idct, ?idctT⟩, fun hq hsrc => ?quantSrc,
    fun hq hdst => ?quantDst⟩
  case dct => exact completesInError_align rfl (List.mem_singleton_self _) hdst
  case idct => exact completesInError_align rfl (List.mem_singleton_self _) hsrc
  case idctT => exact completesInError_align rfl (List.mem_singleton_self _) hsrc
  case quantSrc => exact completesInError_align (hquant hq) List.mem_cons_self hsrc
  case quantDst =>
    exact completesInError_align (hquant hq) (List.mem_cons_of_mem _ (List.mem_singleton_self _)) hdst

/-! ## RANGE (R109) -/

theorem completesInError_range {i : Instr} {s : State} (hparams : ParametersReady i s)
    (hout : (∃ r ∈ (operandsOf i s.latch).sources, ¬ RegionIn s.mem.size r.base r.len) ∨
      (i ≠ .psnr ∧ ¬ RegionIn s.mem.size s.latch.dst.toNat s.latch.cap.toNat)) :
    CompletesInError i s 5 := by
  obtain ⟨hown, haligned⟩ := (parametersReady_iff i s).1 hparams
  rw [← writesMem_operandsOf i s.latch] at hout
  exact completesInError_of_firstError
    (firstError_of_memoryError hown (memoryError_of_outOfRange haligned hout))

/-- Settles O26. The regions of `memoryError_range` and of its converse are the rows of R103. -/
theorem regionOutsideMemory : Obligations.RegionOutsideMemory := by
  refine ⟨fun i s hparams => ⟨fun hsrc => ?_, fun hi hsrc2 => ?_, fun hi hwin => ?_⟩,
    fun i s t h hcode => ?_, fun size base => .inl rfl⟩
  · exact completesInError_range hparams
      (.inl ⟨_, (mem_sources_operandsOf i s _).2 (.inl rfl), hsrc⟩)
  · exact completesInError_range hparams
      (.inl ⟨_, (mem_sources_operandsOf i s _).2 (.inr ⟨hi, rfl⟩), hsrc2⟩)
  · exact completesInError_range hparams (.inr ⟨hi, hwin⟩)
  · rcases exec_errcode_cases (e := .range) h hcode with ⟨he, -⟩ | ⟨he, -⟩ | hmem | ⟨he, -⟩
    · cases he
    · cases he
    · rcases memoryError_range hmem with ⟨r, hr, hout⟩ | ⟨hwrites, hout⟩
      · rcases (mem_sources_operandsOf i s r).1 hr with rfl | ⟨hi, rfl⟩
        · exact .inl hout
        · exact .inr (.inl ⟨hi, hout⟩)
      · exact .inr (.inr ⟨(writesMem_operandsOf i s.latch).1 hwrites, hout⟩)
    · cases he

/-! ## OVERLAP (R110) -/

/-- Settles O27. The window is checked against the source only for a command that writes MEM. -/
theorem windowOverlapsSource : Obligations.WindowOverlapsSource := by
  refine ⟨fun i s hi hparams hsrc hwin hmeet => ?_, fun s t h hcode => ?_⟩
  · obtain ⟨hown, haligned⟩ := (parametersReady_iff i s).1 hparams
    have hwrites := (writesMem_operandsOf i s.latch).2 hi
    have hin : ∀ r ∈ (operandsOf i s.latch).sources, RegionIn s.mem.size r.base r.len := by
      simpa [mem_sources_operandsOf, hi] using hsrc
    have hfirst := (mem_sources_operandsOf i s _).2 (.inl rfl)
    exact completesInError_of_firstError (firstError_of_memoryError hown
      (memoryError_of_overlap haligned hin hwrites hwin ⟨_, hfirst, hmeet⟩))
  · rcases exec_errcode_cases (e := .overlap) h hcode with ⟨he, -⟩ | ⟨he, -⟩ | hmem | ⟨he, -⟩
    · cases he
    · cases he
    · exact (writesMem_operandsOf .psnr s.latch).1 (memoryError_overlap hmem) rfl
    · cases he

/-! ## CAPACITY (R111) -/

/-- Settles O28. Every earlier check passes, and `outputLen` is the length of the output. -/
theorem outputExceedsCapacity : Obligations.OutputExceedsCapacity := by
  intro i s hi hparams hready hlong
  obtain ⟨hown, -⟩ := (parametersReady_iff i s).1 hparams
  have hmem := memoryError_none_of_ready hi hparams hready
  rw [← outputOf_length] at hlong
  exact completesInError_of_firstError (firstError_of_capacity hown hmem hlong)

/-! ## What a completion leaves alone (R114) -/

/-- An output that fits the window leaves the bytes of every region apart from the window alone. -/
theorem commitBytes_read_source {s : State} {out : List Byte} {base len a : Nat}
    (hcap : out.length ≤ s.latch.cap.toNat)
    (hapart : RegionsApart s.latch.dst.toNat s.latch.cap.toNat base len)
    (ha : InRegion base len a) : (commitBytes out s).mem.read a = s.mem.read a := by
  have hout : ¬ InRegion s.latch.dst.toNat s.latch.cap.toNat a := fun hin => hapart a ⟨hin, ha⟩
  rw [InRegion] at hout
  exact read_writeBytes_outside _ _ _ _ (by omega)

/-- Settles O29. An error and PSNR leave MEM as it is; a commit writes inside the window, which meets no
source. -/
theorem completionLeavesOperands : Obligations.CompletionLeavesOperands := by
  intro i s t h
  obtain ⟨hframe, -⟩ := exec_frame h
  refine ⟨hframe, ?_⟩
  rcases exec_cases i s with ⟨e, he⟩ | ⟨hi, hmem, hwrites, hcap, he⟩ | ⟨hi, -, he⟩ <;>
    obtain rfl := Host.Outcome.next.inj (he.symm.trans h)
  · exact ⟨fun _ _ => rfl, fun _ _ => rfl, fun _ => rfl, fun _ => ⟨rfl, rfl⟩⟩
  · obtain ⟨-, -, hwin, hapart⟩ := (memoryError_none ..).1 hmem
    obtain ⟨-, houtside, hlen⟩ := commitBytes_writes (hwin hwrites) hcap
    have hfirst := (mem_sources_operandsOf i s _).2 (.inl rfl)
    refine ⟨fun a ha => houtside a (hlen ▸ ha), fun a ha => ?_, fun hor => ?_, fun _ => ⟨rfl, rfl⟩⟩
    · exact commitBytes_read_source hcap (hapart hwrites _ hfirst) ha
    · simp [hi] at hor
  · refine ⟨fun _ _ => rfl, fun _ _ => rfl, fun _ => rfl, fun hor => ?_⟩
    simp [hi] at hor

/-! ## A CMD write (R100, R101) -/

theorem writeCmd_of_idle {s : State} (hidle : s.status.busy = false) (v : Word) :
    writeCmd v s = issue v s := if_neg (ne_true_of_eq_false hidle)

theorem writeCmd_of_busy {s : State} (hbusy : s.status.busy = true) (v : Word) :
    writeCmd v s = hostError s := if_pos hbusy

/-- With DONE clear, only HERR can drive IRQ. -/
theorem irq_of_not_done {s : State} (hdone : s.status.done = false) :
    irq s = (s.ctrl.heie && s.status.herr) := by
  rw [irq, hdone, Bool.and_false, Bool.false_or]

/-- Settles O36. With BUSY = 0 the write effect of CMD is `issue`, which clears DONE. -/
theorem issueLatchesOperands : Obligations.IssueLatchesOperands := by
  intro s v hidle
  have hwrite := hostDoes_regWrite_offset .cmd v s
  rw [writeReg, writeCmd_of_idle hidle] at hwrite
  exact ⟨_, hwrite, rfl, irq_of_not_done (s := withReply none (issue (v.setWidth 32) s)) rfl⟩

/-- Settles O37. With BUSY = 1 the write effect of CMD is a host access error. -/
theorem cmdWriteWhileBusyIgnored : Obligations.CmdWriteWhileBusyIgnored := by
  intro s v hbusy
  have hwrite := hostDoes_regWrite_offset .cmd v s
  rw [writeReg, writeCmd_of_busy hbusy] at hwrite
  exact ⟨_, hwrite, refusedAccess_hostError none s⟩

end Sys2Proof.Machine

/-! PROOFS. PSNR of a buffer with itself and with its operands swapped (41_psnr.md R132): the metric
depends on its buffers only through the sum of the squared differences and the length of the first. -/

namespace Sys2Proof.Machine

/-! ## The squared difference and its sum (R130) -/

@[simp] theorem squaredDiff_self (a : Byte) : squaredDiff a a = 0 := by
  simp [squaredDiff]

theorem squaredDiff_comm (a b : Byte) : squaredDiff a b = squaredDiff b a := by
  rw [squaredDiff, squaredDiff, ← Int.natAbs_neg, Int.neg_sub]

@[simp] theorem sumSquares_nil_left (B : List Byte) : sumSquares [] B = 0 := rfl

@[simp] theorem sumSquares_nil_right (A : List Byte) : sumSquares A [] = 0 := by
  cases A <;> rfl

@[simp] theorem sumSquares_cons (a b : Byte) (as bs : List Byte) :
    sumSquares (a :: as) (b :: bs) = squaredDiff a b + sumSquares as bs := rfl

@[simp] theorem sumSquares_self (A : List Byte) : sumSquares A A = 0 := by
  induction A with
  | nil => rfl
  | cons a as ih => rw [sumSquares_cons, squaredDiff_self, ih]

/-- The sum stops at the shorter buffer, so this needs no equal lengths. -/
theorem sumSquares_comm (A B : List Byte) : sumSquares A B = sumSquares B A := by
  induction A generalizing B with
  | nil => rw [sumSquares_nil_left, sumSquares_nil_right]
  | cons a as ih =>
    cases B with
    | nil => rw [sumSquares_nil_left, sumSquares_nil_right]
    | cons b bs => rw [sumSquares_cons, sumSquares_cons, squaredDiff_comm, ih]

/-! ## The metric (R132) -/

/-- A zero sum is the branch that answers 100.0 without calling LOG10_FN, whatever the length. -/
@[simp] theorem psnrOfSum_zero (log10 : F64 → F64) (n : Nat) : psnrOfSum log10 0 n = fHundred :=
  if_pos (.inr rfl)

theorem psnr_self (log10 : F64 → F64) (A : List Byte) : psnr log10 A A = fHundred := by
  rw [psnr, sumSquares_self, psnrOfSum_zero]

theorem psnr_comm (log10 : F64 → F64) {A B : List Byte} (hlen : A.length = B.length) :
    psnr log10 A B = psnr log10 B A := by
  rw [psnr, psnr, sumSquares_comm, hlen]

/-- Settles O51. The sum of a buffer with itself is zero, and the sum is symmetric. -/
theorem psnrIdentityAndSymmetry : Obligations.PsnrIdentityAndSymmetry :=
  fun log10 A _ => ⟨psnr_self log10 A, psnr_comm log10⟩

end Sys2Proof.Machine

/-! PROOFS. The byte-oriented run-length code (42_rle.md): what an encoded stream looks like (R141), that
decoding inverts encoding, on byte sequences and through MEM (R145). -/

namespace Sys2Proof.Machine

/-! ## One step of the encoder and of the decoder (R140, R143) -/

@[simp] theorem rleEncFrom_nil (v : Byte) (run : Nat) :
    rleEncFrom v run [] = [BitVec.ofNat 8 run, v] := rfl

/-- The next byte joins the pending run. -/
theorem rleEncFrom_extend {x v : Byte} {run : Nat} (h : x = v ∧ run < 255) (xs : List Byte) :
    rleEncFrom v run (x :: xs) = rleEncFrom v (run + 1) xs := if_pos h

/-- The next byte ends the pending run, by its value or because the run is full. -/
theorem rleEncFrom_emit {x v : Byte} {run : Nat} (h : ¬ (x = v ∧ run < 255)) (xs : List Byte) :
    rleEncFrom v run (x :: xs) = BitVec.ofNat 8 run :: v :: rleEncFrom x 1 xs := if_neg h

@[simp] theorem rleDec_nil : rleDec [] = [] := rfl

@[simp] theorem rleDec_singleton (c : Byte) : rleDec [c] = [] := rfl

@[simp] theorem rleDec_cons_cons (c v : Byte) (Y : List Byte) :
    rleDec (c :: v :: Y) = List.replicate c.toNat v ++ rleDec Y := rfl

/-- A pending run always fits its count byte. -/
theorem toNat_countByte {run : Nat} (h : run ≤ 255) : (BitVec.ofNat 8 run).toNat = run := by
  rw [BitVec.toNat_ofNat]
  omega

theorem countByte_ne_zero {run : Nat} (hpos : 1 ≤ run) (hrun : run ≤ 255) :
    BitVec.ofNat 8 run ≠ 0 := by
  rw [ne_eq, ← BitVec.toNat_inj, toNat_countByte hrun]
  exact Nat.one_le_iff_ne_zero.1 hpos

/-! ## Decoding inverts encoding (R145) -/

/-- Decoding gives back the pending run and the bytes behind it. -/
theorem rleDec_rleEncFrom {run : Nat} (hrun : run ≤ 255) (v : Byte) (xs : List Byte) :
    rleDec (rleEncFrom v run xs) = List.replicate run v ++ xs := by
  induction xs generalizing v run with
  | nil => simp [toNat_countByte hrun]
  | cons x xs ih =>
    by_cases hjoin : x = v ∧ run < 255
    · rw [rleEncFrom_extend hjoin, ih hjoin.2, List.replicate_succ', hjoin.1, List.append_assoc,
        List.singleton_append]
    · rw [rleEncFrom_emit hjoin, rleDec_cons_cons, toNat_countByte hrun, ih (by decide),
        List.replicate_one, List.singleton_append]

theorem rleDec_rleEnc (X : List Byte) : rleDec (rleEnc X) = X := by
  cases X with
  | nil => rfl
  | cons x xs => exact rleDec_rleEncFrom (run := 1) (by decide) x xs

/-! ## The form of an encoded stream (R141) -/

/-- A stream of (count, value) pairs as R141 describes an encoder's output: no count is 0, and a pair
whose value the next pair repeats is full. -/
inductive EncodedStream : List Byte → Prop
  | nil : EncodedStream []
  | pair {c v : Byte} {Y : List Byte} (hcount : c ≠ 0) (hnext : Y[1]? = some v → c = 255)
      (hrest : EncodedStream Y) : EncodedStream (c :: v :: Y)

/-- The first value an encoder emits is that of its pending run. -/
theorem rleEncFrom_value (v : Byte) (run : Nat) (xs : List Byte) :
    (rleEncFrom v run xs)[1]? = some v := by
  induction xs generalizing run with
  | nil => rfl
  | cons x xs ih =>
    by_cases hjoin : x = v ∧ run < 255
    · rw [rleEncFrom_extend hjoin, ih]
    · rw [rleEncFrom_emit hjoin]
      rfl

theorem encodedStream_rleEncFrom {run : Nat} (hpos : 1 ≤ run) (hrun : run ≤ 255) (v : Byte)
    (xs : List Byte) : EncodedStream (rleEncFrom v run xs) := by
  induction xs generalizing v run with
  | nil => exact .pair (countByte_ne_zero hpos hrun) nofun .nil
  | cons x xs ih =>
    by_cases hjoin : x = v ∧ run < 255
    · rw [rleEncFrom_extend hjoin]
      exact ih (by omega) hjoin.2 v
    · rw [rleEncFrom_emit hjoin]
      refine .pair (countByte_ne_zero hpos hrun) (fun hnext => ?_) (ih (by decide) (by decide) x)
      have hsame : x = v := Option.some.inj ((rleEncFrom_value x 1 xs).symm.trans hnext)
      have hfull : run = 255 := Nat.le_antisymm hrun (Nat.not_lt.1 fun hlt => hjoin ⟨hsame, hlt⟩)
      rw [hfull]
      rfl

theorem encodedStream_rleEnc (X : List Byte) : EncodedStream (rleEnc X) := by
  cases X with
  | nil => exact .nil
  | cons x xs => exact encodedStream_rleEncFrom (by decide) (by decide) x xs

/-! ## What the form gives, pair by pair -/

theorem length_pair (c v : Byte) (Y : List Byte) : (c :: v :: Y).length = Y.length + 2 := rfl

/-- Behind the first pair, pair `j + 1` of a stream is pair `j` of the rest. -/
theorem getD_succ_pair (c v : Byte) (Y : List Byte) (j k : Nat) :
    (c :: v :: Y).getD (2 * (j + 1) + k) 0 = Y.getD (2 * j + k) 0 := by
  rw [show 2 * (j + 1) + k = 2 * j + k + 1 + 1 by omega, List.getD_cons_succ, List.getD_cons_succ]

theorem getD_succ_count (c v : Byte) (Y : List Byte) (j : Nat) :
    (c :: v :: Y).getD (2 * (j + 1)) 0 = Y.getD (2 * j) 0 := getD_succ_pair c v Y j 0

namespace EncodedStream

variable {Y : List Byte}

theorem length_even (h : EncodedStream Y) : Y.length % 2 = 0 := by
  induction h with
  | nil => rfl
  | pair _ _ _ ih => rwa [length_pair, Nat.add_mod_right]

theorem count_pos (h : EncodedStream Y) {j : Nat} (hj : 2 * j < Y.length) :
    1 ≤ (Y.getD (2 * j) 0).toNat := by
  induction h generalizing j with
  | nil => simp at hj
  | @pair c v Y hcount _ _ ih =>
    rw [length_pair] at hj
    cases j with
    | zero => exact Nat.one_le_iff_ne_zero.2 fun hzero => hcount (BitVec.eq_of_toNat_eq hzero)
    | succ j =>
      rw [getD_succ_count]
      exact ih (by omega)

/-- Two pairs with one value meet only behind a full run. -/
theorem count_of_same_value (h : EncodedStream Y) {j : Nat} (hj : 2 * j + 3 < Y.length)
    (hsame : Y.getD (2 * j + 1) 0 = Y.getD (2 * j + 3) 0) : Y.getD (2 * j) 0 = 255 := by
  induction h generalizing j with
  | nil => simp at hj
  | @pair c v Y _ hnext _ ih =>
    rw [length_pair] at hj
    cases j with
    | zero =>
      have hlen : 1 < Y.length := by omega
      apply hnext
      rw [List.getElem?_eq_getElem hlen, ← List.getD_eq_getElem Y 0 hlen]
      exact congrArg some hsame.symm
    | succ j =>
      rw [getD_succ_pair, getD_succ_pair] at hsame
      rw [getD_succ_count]
      exact ih (by omega) hsame

end EncodedStream

/-- The counts of any stream add up to the length of what it decodes to (R143). -/
theorem sum_counts_eq_length_rleDec (Y : List Byte) :
    (∑ j ∈ Finset.range (Y.length / 2), (Y.getD (2 * j) 0).toNat) = (rleDec Y).length := by
  induction Y using rleDec.induct with
  | case1 c v Y ih =>
    have hpairs : (c :: v :: Y).length / 2 = Y.length / 2 + 1 := by
      rw [length_pair]
      omega
    rw [hpairs, Finset.sum_range_succ', rleDec_cons_cons, List.length_append,
      List.length_replicate, Nat.add_comm, ← ih]
    simp only [getD_succ_count]
    rfl
  | case2 Y hshort =>
    match Y, hshort with
    | [], _ => rfl
    | [c], _ => simp
    | c :: v :: Y, hshort => exact absurd rfl (hshort c v Y)

/-- Settles O50. The encoder's output has the form of R141, and its counts add up to the length of
what it decodes to, which is the source. -/
theorem rleStreamProperties : Obligations.RleStreamProperties := by
  intro X
  have hform := encodedStream_rleEnc X
  refine ⟨hform.length_even, fun j hj => ⟨hform.count_pos hj, ?_⟩, ?_,
    fun j hj hsame => hform.count_of_same_value hj hsame⟩
  · exact Nat.le_of_lt_succ (BitVec.isLt _)
  · rw [sum_counts_eq_length_rleDec, rleDec_rleEnc]

/-! ## A command that succeeds (40_command.md R113) -/

/-- A success of a command that writes MEM is its commit, with every check passed. -/
theorem exec_success {i : Instr} {s t : State} (hi : i ≠ .psnr) (h : exec i s = .next t)
    (hok : t.status.err = false) :
    memoryError (operandsOf i s.latch) s.latch s.mem.size = none ∧
      (outputOf i s).length ≤ s.latch.cap.toNat ∧ t = commitBytes (outputOf i s) s := by
  rcases exec_cases i s with ⟨e, he⟩ | ⟨-, hmem, -, hcap, he⟩ | ⟨hpsnr, -, -⟩
  · obtain rfl := Host.Outcome.next.inj (he.symm.trans h)
    cases hok
  · exact ⟨hmem, hcap, Host.Outcome.next.inj (h.symm.trans he)⟩
  · exact absurd hpsnr hi

/-- With every check passed, a command that writes MEM commits its output. -/
theorem exec_of_ready {i : Instr} {s : State} (hi : i ≠ .psnr) (hparams : ParametersReady i s)
    (hready : WindowReady s (sourceLen i s)) (hcap : (outputOf i s).length ≤ s.latch.cap.toNat) :
    exec i s = .next (commitBytes (outputOf i s) s) := by
  obtain ⟨hown, -⟩ := (parametersReady_iff i s).1 hparams
  have hmem := memoryError_none_of_ready hi hparams hready
  have hfirst : firstError i s = none := by
    rw [firstError, hown, hmem, Option.none_or, Option.none_or, capacityError,
      if_neg (Nat.not_lt.2 hcap)]
  have hcommit : commitOf i s = commitBytes (outputOf i s) s := by
    cases i with
    | psnr => exact absurd rfl hi
    | _ => rfl
  rw [exec_eq, hfirst, hcommit]
  rfl

/-- A committed output reads back from the window. -/
theorem commitBytes_readBytes {s : State} {out : List Byte}
    (hwin : RegionIn s.mem.size s.latch.dst.toNat s.latch.cap.toNat)
    (hcap : out.length ≤ s.latch.cap.toNat) :
    (commitBytes out s).mem.readBytes s.latch.dst.toNat out.length = out := by
  rw [RegionIn] at hwin
  exact readBytes_writeBytes _ _ _ (by omega)

/-! ## The round trip through MEM (R145) -/

/-- A successful RLE.ENC leaves the encoded source, OUT_LEN bytes, at L.dst, inside MEM. -/
theorem rleEnc_success {s t : State} (h : exec .rleEnc s = .next t) (hok : t.status.err = false) :
    t.outLen.toNat = (rleEnc (sourceBytes s)).length ∧
      RegionIn t.mem.size s.latch.dst.toNat t.outLen.toNat ∧
      t.mem.readBytes s.latch.dst.toNat t.outLen.toNat = rleEnc (sourceBytes s) := by
  obtain ⟨hmem, hcap, rfl⟩ := exec_success (by decide) h hok
  obtain ⟨-, -, hwindow, -⟩ := (memoryError_none ..).1 hmem
  have hwin := hwindow rfl
  obtain ⟨-, -, hlen⟩ := commitBytes_writes hwin hcap
  refine ⟨hlen, ?_, ?_⟩
  · rw [hlen, commitBytes_mem, writeBytes_size]
    rw [RegionIn] at hwin ⊢
    omega
  · rw [hlen]
    exact commitBytes_readBytes hwin hcap

/-- RLE.DEC of a source that an encoder made leaves the encoder's source at L.dst. -/
theorem rleDec_of_encoded_source {s : State} {X : List Byte} (hsource : sourceBytes s = rleEnc X)
    (hready : WindowReady s s.latch.len.toNat) (hcap : X.length ≤ s.latch.cap.toNat) :
    ∃ u, exec .rleDec s = .next u ∧ u.status.err = false ∧ u.outLen.toNat = X.length ∧
      u.mem.readBytes s.latch.dst.toNat X.length = X := by
  have hout : outputOf .rleDec s = X := (congrArg rleDec hsource).trans (rleDec_rleEnc X)
  have hlen : s.latch.len.toNat = (rleEnc X).length := by
    rw [← hsource, sourceBytes, readBytes_length]
  have heven : s.latch.len.toNat % 2 = 0 := hlen ▸ (encodedStream_rleEnc X).length_even
  have hsourceLen : sourceLen .rleDec s = s.latch.len.toNat := Nat.one_mul _
  have hexec := exec_of_ready (i := .rleDec) (by decide) heven
    (hsourceLen ▸ hready) (hout ▸ hcap)
  rw [hout] at hexec
  obtain ⟨-, hwin, -⟩ := hready
  obtain ⟨-, -, houtLen⟩ := commitBytes_writes hwin hcap
  exact ⟨_, hexec, rfl, houtLen, commitBytes_readBytes hwin hcap⟩

/-- Settles O49. On the hardware, RLE.DEC reads exactly the stream that RLE.ENC left, and its length
is the encoder's, so every check of RLE.DEC passes. -/
theorem rleRoundTripOnHardware : Obligations.RleRoundTripOnHardware := by
  refine ⟨rleDec_rleEnc, fun Y hforeign hsame => hforeign _ hsame.symm, by decide, by decide, ?_⟩
  intro s t dst cap henc hok hwin hapart hcap
  obtain ⟨hlen, hstream, hread⟩ := rleEnc_success henc hok
  obtain ⟨⟨-, -, -, -, -, -, -, -, -, -, hsize, -⟩, -⟩ := exec_frame henc
  have hsourceLen : (sourceBytes s).length = s.latch.len.toNat := readBytes_length ..
  obtain ⟨u, hdec, huok, hulen, huread⟩ := rleDec_of_encoded_source
    (s := { t with latch := { t.latch with src := s.latch.dst, len := t.outLen,
                                           dst := dst, cap := cap } })
    hread ⟨hstream, hsize ▸ hwin, hapart⟩ (hsourceLen ▸ hcap)
  exact ⟨u, hdec, huok, BitVec.eq_of_toNat_eq (hulen.trans hsourceLen), hsourceLen ▸ huread⟩

end Sys2Proof.Machine

/-! PROOFS. The conversion of a reconstructed value to a pixel byte (43_dct.md R163): rounding and
truncation give an integer as a datum, and the clamp of that datum is the clamp of the integer, even
where a large integer is rounded once more or overflows to infinity. -/

namespace Sys2Proof.Machine

/-! ## Large data (00_scope.md R10) -/

theorem isInf_of_not_finite {x : F64} (hnan : isNaN x = false) (hfin : isFinite x = false) :
    isInf x = true := by
  have hexp : fexp x = 2047 := by simpa [isFinite] using hfin
  have hfrac : ffrac x = 0 := by simpa [isNaN, hexp] using hnan
  simp [isInf, hexp, hfrac]

/-- A quotient too large for 53 bits loses less than half of itself in the rounding. -/
theorem div_lt_two_mul_fmag_froundQ {neg : Bool} {num den : Nat} (hden : 0 < den)
    (hlarge : 2 ^ 53 ≤ num / den) (hfin : isFinite (froundQ neg num den) = true) :
    num / den < 2 * fmag (froundQ neg num den) := by
  rw [fmag_froundQ hden ((isFinite_froundQ _ _ _).1 hfin)]
  obtain ⟨-, hsignificand⟩ := significand_bounds num hden
  rcases roundShift_spec num den with ⟨-, hsmall⟩ | ⟨hshift, -, hbelow⟩
  · omega
  · have hmin := hsignificand.resolve_left hshift.ne'
    calc num / den < 2 ^ (roundShift num den + 53) := hbelow
      _ = 2 * (2 ^ 52 * 2 ^ roundShift num den) := by ring
      _ ≤ _ := Nat.mul_le_mul_left 2 (Nat.mul_le_mul_right _ hmin)

/-! ## The clamp (R11) -/

theorem clampByte_of_neg {r : F64} (hneg : fsign r = true) : clampByte r = 0 := if_pos hneg

theorem clampByte_of_inf {r : F64} (hinf : isInf r = true) :
    clampByte r = if fsign r then 0 else 255 := by
  rw [clampByte, if_pos hinf]

theorem toNat_clampByte_of_finite {r : F64} (hfin : isFinite r = true) (hpos : fsign r = false) :
    (clampByte r).toNat = min (fmag r / funit) 255 := by
  rw [clampByte, hpos, isInf_of_finite hfin, if_neg Bool.false_ne_true, if_neg Bool.false_ne_true,
    BitVec.toNat_ofNat, Nat.mod_eq_of_lt ((Nat.min_le_right _ _).trans_lt (by norm_num))]

/-- Up to 2^53 the datum is the integer itself; past it the datum is infinite or still far above
255. -/
theorem toNat_clampByte_f64OfNat (i : Nat) : (clampByte (f64OfNat i)).toNat = min i 255 := by
  have hsign : fsign (f64OfNat i) = false := fsign_froundQ _ _ _
  rcases Nat.lt_or_ge i (2 ^ 53) with hsmall | hlarge
  · obtain ⟨hfin, hmag, -⟩ := f64OfNat_exact hsmall.le
    rw [toNat_clampByte_of_finite hfin hsign, hmag, Nat.mul_div_cancel _ funit_pos]
  · rw [Nat.min_eq_right (by omega : 255 ≤ i)]
    cases hfin : isFinite (f64OfNat i) with
    | false =>
      have hinf : isInf (f64OfNat i) = true := isInf_of_not_finite (isNaN_froundQ _ _ _) hfin
      rw [clampByte_of_inf hinf, hsign]
      rfl
    | true =>
      have hquot : 2 ^ 53 ≤ i * funit / 1 := by
        rw [Nat.div_one]
        exact hlarge.trans (Nat.le_mul_of_pos_right i funit_pos)
      have hhalf : i * funit / 1 < 2 * fmag (f64OfNat i) :=
        div_lt_two_mul_fmag_froundQ Nat.one_pos hquot hfin
      rw [Nat.div_one] at hhalf
      have hmag : 255 * funit ≤ fmag (f64OfNat i) := by
        have := Nat.mul_le_mul_right funit hlarge
        omega
      rw [toNat_clampByte_of_finite hfin hsign,
        Nat.min_eq_right ((Nat.le_div_iff_mul_le funit_pos).2 hmag)]

/-! ## Rounding and truncation to an integer (R11) -/

theorem fsign_rha (y : F64) : fsign (rha y) = fsign y := by
  rw [rha]
  split
  · exact fsign_froundQ _ _ _
  · rfl

theorem fsign_trz (y : F64) : fsign (trz y) = fsign y := by
  rw [trz]
  split
  · exact fsign_froundQ _ _ _
  · rfl

theorem rha_of_inf {y : F64} (hinf : isInf y = true) : rha y = y := by
  rw [rha, isFinite_of_inf hinf, if_neg Bool.false_ne_true]

theorem trz_of_inf {y : F64} (hinf : isInf y = true) : trz y = y := by
  rw [trz, isFinite_of_inf hinf, if_neg Bool.false_ne_true]

theorem rha_eq_f64OfNat {y : F64} (hfin : isFinite y = true) (hpos : fsign y = false) :
    rha y = f64OfNat ((2 * fmag y + funit) / (2 * funit)) := by
  rw [rha, if_pos hfin, hpos, f64OfNat]

theorem trz_eq_f64OfNat {y : F64} (hfin : isFinite y = true) (hpos : fsign y = false) :
    trz y = f64OfNat (fmag y / funit) := by
  rw [trz, if_pos hfin, hpos, f64OfNat]

/-! ## The conversion (R163) -/

theorem conv_of_nan {y : F64} (hnan : isNaN y = true) (rnd : Bool) : conv rnd y = 0 := if_pos hnan

theorem conv_false_of_not_nan {y : F64} (hnan : isNaN y = false) :
    conv false y = clampByte (rha y) := by
  rw [conv, hnan, if_neg Bool.false_ne_true, if_neg Bool.false_ne_true]

theorem conv_true_of_not_nan {y : F64} (hnan : isNaN y = false) :
    conv true y = clampByte (trz y) := by
  rw [conv, hnan, if_neg Bool.false_ne_true, if_pos rfl]

theorem conv_of_inf {y : F64} (hinf : isInf y = true) (rnd : Bool) :
    conv rnd y = if fsign y then 0 else 255 := by
  cases rnd with
  | false => rw [conv_false_of_not_nan (isNaN_of_inf hinf), rha_of_inf hinf, clampByte_of_inf hinf]
  | true => rw [conv_true_of_not_nan (isNaN_of_inf hinf), trz_of_inf hinf, clampByte_of_inf hinf]

theorem conv_of_neg {y : F64} (hnan : isNaN y = false) (hneg : fsign y = true) (rnd : Bool) :
    conv rnd y = 0 := by
  cases rnd with
  | false => rw [conv_false_of_not_nan hnan, clampByte_of_neg ((fsign_rha y).trans hneg)]
  | true => rw [conv_true_of_not_nan hnan, clampByte_of_neg ((fsign_trz y).trans hneg)]

/-- Settles O54. Either mode makes an integer datum of a finite value, and the clamp does not see
the rounding of that datum. -/
theorem conversionRoundsAndClamps : Obligations.ConversionRoundsAndClamps := by
  intro y rnd
  refine ⟨fun hnan => conv_of_nan hnan rnd, fun hinf => conv_of_inf hinf rnd,
    fun hfin hneg => conv_of_neg (isNaN_of_finite hfin) hneg rnd, fun hfin hpos => ⟨?_, ?_⟩⟩
  · rw [conv_false_of_not_nan (isNaN_of_finite hfin), rha_eq_f64OfNat hfin hpos,
      toNat_clampByte_f64OfNat]
  · rw [conv_true_of_not_nan (isNaN_of_finite hfin), trz_eq_f64OfNat hfin hpos,
      toNat_clampByte_f64OfNat]

end Sys2Proof.Machine

/-! PROOFS. What the transforms share (43_dct.md R160): the sum f64(n) + 0.5 is exact, and the
cosine's argument at k = 0 is +0.0. -/

namespace Sys2Proof.Machine

/-! ## Bounds on data (00_scope.md R10) -/

theorem fmag_lt (x : F64) : fmag x < 2 ^ (52 + fexp x) := by
  have hfrac := ffrac_lt x
  rw [fmag]
  split
  next hzero => rwa [hzero]
  next hexp =>
    obtain ⟨e, he⟩ := Nat.exists_eq_succ_of_ne_zero hexp
    rw [he]
    calc (2 ^ 52 + ffrac x) * 2 ^ e < 2 ^ 53 * 2 ^ e :=
          Nat.mul_lt_mul_of_pos_right (by omega) (by positivity)
      _ = 2 ^ (52 + (e + 1)) := by ring

/-- Up to 2^2097 units, half the bound of overflow, a rounding is finite. -/
theorem isFinite_froundQ_of_lt {neg : Bool} {num den b : Nat} (hb : b ≤ 2097)
    (h : num < 2 ^ b * den) : isFinite (froundQ neg num den) = true := by
  have hden : 0 < den := Nat.pos_of_ne_zero (by rintro rfl; simp at h)
  have hquot : num / den < 2 ^ b := (Nat.div_lt_iff_lt_mul hden).2 h
  have hshift : roundShift num den ≤ 2044 := by
    rcases roundShift_spec num den with ⟨hzero, -⟩ | ⟨-, hlow, -⟩
    · omega
    · have := (Nat.pow_lt_pow_iff_right Nat.one_lt_two).1 (hlow.trans_lt hquot)
      omega
  obtain ⟨hsignificand, -⟩ := significand_bounds num hden
  rw [isFinite_froundQ, roundBits]
  omega

/-- A product of finite data is finite when their exponents say so. -/
theorem isFinite_fmul_of_le {x y : F64} {b : Nat} (hx : isFinite x = true) (hy : isFinite y = true)
    (hmag : fmag y ≤ 2 ^ b * funit) (hb : 52 + fexp x + b ≤ 2097) :
    isFinite (fmul x y) = true := by
  rw [fmul_of_finite hx hy]
  refine isFinite_froundQ_of_lt hb ?_
  calc fmag x * fmag y ≤ fmag x * (2 ^ b * funit) := Nat.mul_le_mul_left _ hmag
    _ < 2 ^ (52 + fexp x) * (2 ^ b * funit) :=
        Nat.mul_lt_mul_of_pos_right (fmag_lt x) (Nat.mul_pos (by positivity) funit_pos)
    _ = 2 ^ (52 + fexp x + b) * funit := by rw [← Nat.mul_assoc, ← pow_add]

/-- A numerator of zero gives a zero of the sign asked for. -/
theorem froundQ_zero (neg : Bool) {den : Nat} (hden : 0 < den) : froundQ neg 0 den = fzero neg := by
  have hbits := roundBits_exact (m := 0) (e := 0) (by norm_num) (by norm_num) (.inl rfl) hden
  rw [Nat.zero_mul, Nat.zero_mul] at hbits
  rw [froundQ, hbits, fzero, Nat.zero_mul]

theorem fzero_false : fzero false = 0 := rfl

/-- A finite datum that is not negative times +0.0. -/
theorem fmul_zero_of_pos {x : F64} (hfin : isFinite x = true) (hpos : fsign x = false) :
    fmul x 0 = 0 := by
  have hmag : fmag 0 = 0 := rfl
  have hsign : fsign 0 = false := rfl
  rw [fmul_of_finite hfin rfl, hmag, Nat.mul_zero, froundQ_zero _ funit_pos, hpos, hsign,
    bne_self_eq_false, fzero_false]

/-- +0.0 divided by a positive finite datum. -/
theorem fdiv_zero_of_pos {y : F64} (hfin : isFinite y = true) (hpos : fsign y = false)
    (hmag : fmag y ≠ 0) : fdiv 0 y = 0 := by
  have hzero : fmag 0 = 0 := rfl
  have hsign : fsign 0 = false := rfl
  rw [fdiv_of_finite rfl hfin hmag, hzero, Nat.zero_mul, froundQ_zero _ (Nat.pos_of_ne_zero hmag),
    hpos, hsign, bne_self_eq_false, fzero_false]

/-! ## The sum f64(n) + 0.5 -/

theorem fmag_fHalf : fmag fHalf = 2 ^ 1073 := by
  have hexp : fexp fHalf = 1022 := rfl
  have hfrac : ffrac fHalf = 0 := rfl
  rw [fmag, hexp, hfrac, if_neg (by norm_num), Nat.add_zero, ← pow_add]

theorem funit_eq_two_mul_fmag_fHalf : funit = 2 * fmag fHalf := by
  rw [fmag_fHalf, funit, pow_succ, Nat.mul_comm]

/-- The sum is 2 n + 1 halves: one bit more than n, so it is exact for n below 2^52. -/
theorem fadd_f64OfNat_fHalf_exact {n : Nat} (hn : n < 2 ^ 52) :
    isFinite (fadd (f64OfNat n) fHalf) = true ∧ fsign (fadd (f64OfNat n) fHalf) = false ∧
    2 * fmag (fadd (f64OfNat n) fHalf) = (2 * n + 1) * funit := by
  obtain ⟨hfinN, hmagN, hsignN⟩ := f64OfNat_exact (n := n) (by omega)
  have hhalves : n * funit + fmag fHalf = (2 * n + 1) * fmag fHalf := by
    rw [funit_eq_two_mul_fmag_fHalf]
    ring
  have hexact := froundQ_exact false (m := 2 * n + 1) (e := 1073) (by omega) (by norm_num)
    Nat.one_pos
  rw [Nat.mul_one, ← fmag_fHalf] at hexact
  obtain ⟨hfin, hmag⟩ := hexact
  rw [fadd_of_pos hfinN rfl hsignN rfl, hmagN, hhalves, hmag]
  refine ⟨hfin, fsign_froundQ _ _ _, ?_⟩
  rw [funit_eq_two_mul_fmag_fHalf]
  ring

/-! ## The argument of the cosine (R160) -/

/-- PI * (f64(n) + 0.5) does not overflow: the sum is at most 2^32, and PI below 4. -/
theorem fmul_fPi_finite {n : Nat} (hn : n < 2 ^ 31) :
    isFinite (fmul fPi (fadd (f64OfNat n) fHalf)) = true ∧
    fsign (fmul fPi (fadd (f64OfNat n) fHalf)) = false := by
  obtain ⟨hfin, hsign, hmag⟩ := fadd_f64OfNat_fHalf_exact (hn.trans (by norm_num))
  have hsum : fmag (fadd (f64OfNat n) fHalf) ≤ 2 ^ 32 * funit := by
    have : (2 * n + 1) * funit ≤ 2 ^ 32 * funit := Nat.mul_le_mul_right _ (by omega)
    omega
  have hexp : fexp fPi = 1024 := rfl
  refine ⟨isFinite_fmul_of_le rfl hfin hsum (by omega), ?_⟩
  rw [fmul_of_finite rfl hfin, fsign_froundQ, hsign]
  rfl

/-- For k = 0 the argument is +0.0 at every n. -/
theorem dctArg_zero {n N : Nat} (hn : n < N) (hN : N ≤ 2 ^ 31) : dctArg n 0 N = 0 := by
  obtain ⟨hfin, hsign⟩ := fmul_fPi_finite (hn.trans_le hN)
  obtain ⟨hfinN, hmagN, hsignN⟩ := f64OfNat_exact (hN.trans (by norm_num))
  have hmag : fmag (f64OfNat N) ≠ 0 := by
    rw [hmagN]
    exact Nat.mul_ne_zero (by omega) funit_pos.ne'
  rw [dctArg, f64OfNat_zero, fzero_false, fmul_zero_of_pos hfin hsign,
    fdiv_zero_of_pos hfinN hsignN hmag]

theorem dctScale_eq (k N : Nat) :
    dctScale k N = fsqrt (fdiv (if k = 0 then fOne else fTwo) (f64OfNat N)) := by
  rw [dctScale]
  split <;> rfl

/-- Settles O60. Argument, scale and cosine are the model's definitions; the rest is the exact sum
and the product with +0.0. -/
theorem transformParameters : Obligations.TransformParameters := by
  intro cosFn n k N hn _
  refine ⟨rfl, dctScale_eq k N, rfl, fun hN => ?_⟩
  obtain ⟨hfin, hsign, hmag⟩ := fadd_f64OfNat_fHalf_exact
    ((hn.trans_le hN).trans (by norm_num : 2 ^ 31 < 2 ^ 52))
  have hval : 2 * fval (fadd (f64OfNat n) fHalf) = ((2 * n + 1 : Nat) : Int) * funit := by
    rw [fval_of_pos hsign]
    exact_mod_cast hmag
  exact ⟨hfin, hval, dctArg_zero hn hN, congrArg cosFn (dctArg_zero hn hN)⟩

end Sys2Proof.Machine

/-! PROOFS. The reset values and the soft reset (70_reset_and_hazards.md R230, R232): what the registers
read after reset, and the bytes of MEM a soft reset leaves alone. -/

namespace Sys2Proof.Machine

/-! ## MEMSZ (10_state.md R36) -/

/-- A legal MEM_BYTES fits the 32 bits of MEMSZ, so the register does not cut it. -/
theorem toNat_readReg_memsz {s : State} (hwf : s.mem.wf) : (readReg .memsz s).toNat = s.mem.size := by
  obtain ⟨⟨-, -, hsize⟩, -⟩ := hwf
  rw [readReg, BitVec.toNat_ofNat]
  omega

/-- With both enables 0 nothing drives IRQ. -/
theorem irq_of_disabled {s : State} (hctrl : s.ctrl = { ie := false, heie := false }) :
    irq s = false := by
  rw [irq, hctrl, Bool.false_and, Bool.false_and, Bool.or_false]

/-- Settles O42. The fields are those of `State.reset`; MEMSZ reads MEM_BYTES because MEM_BYTES is
legal. -/
theorem resetValues : Obligations.ResetValues :=
  ⟨rfl, rfl, rfl, rfl, rfl, rfl, rfl, rfl, rfl, rfl, rfl, rfl, rfl, rfl,
    toNat_readReg_memsz reset_mem_wf, irq_of_disabled rfl⟩

/-! ## The soft reset and MEM -/

/-- The unspecified bytes of the latched window lie inside it, so every other byte is kept (R232). -/
theorem scrambleWindow_read_outside (s : State) {a : Nat}
    (ha : ¬ InRegion s.latch.dst.toNat s.latch.cap.toNat a) :
    (scrambleWindow s).mem.read a = s.mem.read a := by
  have hlen : (freeBytes s.draws (window s.latch) s.mem.size).length ≤ s.latch.cap.toNat := by
    rw [freeBytes_length]
    exact Nat.min_le_left _ _
  rw [InRegion] at ha
  exact read_writeBytes_outside _ _ _ _ (by omega)

@[simp] theorem softReset_mem_size (s : State) : (softReset s).mem.size = s.mem.size := by
  cases hbusy : s.status.busy with
  | false => rw [softReset_mem_idle s hbusy]
  | true => rw [softReset_mem_busy s hbusy, scrambleWindow_mem, writeBytes_size]

/-- Apart from MEM and the model's own fields, `SoftReset()` leaves the state of a hard reset. -/
theorem withReply_softReset_eq (s : State) :
    withReply none (softReset s) =
      { State.reset with
        mem := (softReset s).mem, draws := (softReset s).draws, turns := s.turns } := by
  rw [← softReset_turns s]
  rfl

/-- Every CTRL write with bit 2 = 1 is the soft reset, whatever its other bits are (R27). -/
theorem hostDoes_softReset {v : BitVec 64} (hsrst : v.getLsbD 2 = true) (s : State) :
    HostDoes (.regWrite 0x000 .w4 v) s (withReply none (softReset s)) :=
  (ctrlWriteEffect s v).1 hsrst

/-- Settles O43. With BUSY = 0 the soft reset does not touch MEM; with BUSY = 1 it writes only inside
the latched window. -/
theorem softResetEffect : Obligations.SoftResetEffect := by
  intro s
  refine ⟨withReply none (softReset s), fun v hsrst => hostDoes_softReset hsrst s,
    withReply_softReset_eq s, softReset_mem_size s, softReset_mem_idle s, fun hbusy a ha => ?_⟩
  calc (softReset s).mem.read a = (scrambleWindow s).mem.read a := by rw [softReset_mem_busy s hbusy]
    _ = s.mem.read a := scrambleWindow_read_outside s ha

end Sys2Proof.Machine

/-! PROOFS. Decode and encode agree (30_encoding.md R81, R83): the fields that pass every check are those
of the seven commands, so only the command words decode. -/

namespace Sys2Proof

/-- The operation codes that R83 leaves over. -/
theorem op_cases_of_defined {op : BitVec 4} (hzero : op ≠ 0) (hhigh : op.toNat < 7) :
    op = 1 ∨ op = 2 ∨ op = 3 ∨ op = 4 ∨ op = 5 ∨ op = 6 := by
  revert op
  decide

/-- Fields that pass every check are those of one of the seven commands (R81). -/
theorem CmdWord.exists_instrFields {c : CmdWord} (h : c.wellFormed = true) :
    ∃ i, c = instrFields i := by
  obtain ⟨op, rnd, rsv⟩ := c
  have hlegal := mt (CmdWord.wellFormed_eq_false_iff ⟨op, rnd, rsv⟩).2 (ne_false_of_eq_true h)
  simp only [not_or, not_and, not_not, not_le] at hlegal
  obtain ⟨rfl, hrnd, hop⟩ := hlegal
  cases rnd with
  | true =>
    obtain rfl := hrnd rfl
    exact ⟨.idctT, rfl⟩
  | false =>
    rcases op_cases_of_defined hop.1 hop.2 with rfl | rfl | rfl | rfl | rfl | rfl
    · exact ⟨.rleEnc, rfl⟩
    · exact ⟨.rleDec, rfl⟩
    · exact ⟨.dct, rfl⟩
    · exact ⟨.idct, rfl⟩
    · exact ⟨.quant, rfl⟩
    · exact ⟨.psnr, rfl⟩

/-- A word that decodes at all is the word of some command. -/
theorem exists_encode_of_decode {w : Word} {i : Instr} (h : decode w = .ok i) :
    ∃ j, w = encode j := by
  have hwell : (cmdFields w).wellFormed = true := by
    refine Bool.eq_true_of_not_eq_false fun hill => ?_
    obtain ⟨e, he⟩ := decodeFields_of_not_wellFormed hill
    rw [decode, he] at h
    cases h
  obtain ⟨j, hj⟩ := CmdWord.exists_instrFields hwell
  exact ⟨j, by rw [encode, ← hj, cmdPack_fields]⟩

/-- Settles O1. A word that decodes is some command's word, and that word decodes to its own command. -/
theorem decodeEncodeAgree : Obligations.DecodeEncodeAgree := by
  intro w i
  constructor
  · intro hdec
    obtain ⟨j, rfl⟩ := exists_encode_of_decode hdec
    have hij : j = i := Except.ok.inj ((decode_encode j).symm.trans hdec)
    rw [hij]
  · rintro rfl
    exact decode_encode i

/-- Settles O3. The bytes of the three legal words are those of command words; the others fail the
rounding, the reserved and the operation check. -/
theorem sampleWordsDecode : Obligations.SampleWordsDecode :=
  ⟨(decodeBytes_wordBytes (encode .rleEnc)).trans (decode_encode .rleEnc),
    (decodeBytes_wordBytes (encode .idctT)).trans (decode_encode .idctT),
    (decodeBytes_wordBytes (encode .psnr)).trans (decode_encode .psnr),
    decodeFields_of_rounding (c := cmdFields 0x15) (by decide) (by decide),
    decodeFields_of_reserved (c := cmdFields 0x24) (by decide),
    decodeFields_of_undefinedOp (c := cmdFields 0x07) (by decide) (by decide) (by decide)⟩

end Sys2Proof

/-! PROOFS. One step and what it keeps: every way a step can go, as one inductive predicate, and what
follows from it for BUSY, DONE and HERR (40_command.md R102, 60_exceptions.md R202), for MEM and LATCH
while a command runs, for MEM_BYTES, and for the invariant. -/

namespace Sys2Proof.Machine

/-! ## Every way a step can go -/

/-- What a host transaction that issues, resets and stores nothing leaves alone. -/
def HostFrame (s u : State) : Prop :=
  u.mem = s.mem ∧ u.draws = s.draws ∧ u.turns = s.turns ∧ u.latch = s.latch ∧ u.cmd = s.cmd ∧
    u.outLen = s.outLen ∧ u.psnrLo = s.psnrLo ∧ u.psnrHi = s.psnrHi

/-- `StepEffect s t`: one of the ways in which a step leads from `s` to `t`. The first four are the
engine's turn, the next six the host's, the last is the reset input. -/
inductive StepEffect (s : State) : State → Prop
  | rests (hmoves : EngineMovesNext s) (hidle : s.status.busy = false) : StepEffect s (dropTurn s)
  | fails (hmoves : EngineMovesNext s) (hbusy : s.status.busy = true) (e : CmdError) :
      StepEffect s (raise e (dropTurn s))
  | writes (hmoves : EngineMovesNext s) (hbusy : s.status.busy = true) (out : List Byte) :
      StepEffect s (commitBytes out (dropTurn s))
  | measures (hmoves : EngineMovesNext s) (hbusy : s.status.busy = true) (r : F64) :
      StepEffect s (commitPsnr r (dropTurn s))
  | accesses {u : State} (hframe : HostFrame (dropTurn s) u) (hstatus : u.status = s.status) :
      StepEffect s u
  | errs {u : State} (hframe : HostFrame (dropTurn s) u) (hstatus : u.status = s.status.withHerr) :
      StepEffect s u
  | clears {u : State} (v : BitVec 64) (hwrite : NextWrites 0x004 v s)
      (hframe : HostFrame (dropTurn s) u) (hstatus : u.status = s.status.clear (v.setWidth 32)) :
      StepEffect s u
  | issues (v : BitVec 64) (hwrite : NextWrites 0x008 v s) (hidle : s.status.busy = false) :
      StepEffect s (withReply none (issue (v.setWidth 32) (dropTurn s)))
  | stores (a n v : Nat) (hidle : s.status.busy = false) :
      StepEffect s (withReply none { dropTurn s with mem := s.mem.writeNat a n v })
  | softResets (v : BitVec 64) (hwrite : NextWrites 0x000 v s) (hsrst : v.getLsbD 2 = true) :
      StepEffect s (withReply none (softReset (dropTurn s)))
  | hardResets (hreset : ∃ ts, s.turns = .hardReset :: ts) : StepEffect s (hardReset (dropTurn s))

/-- The engine's turn is one of the first four. -/
theorem stepEffect_of_engineTurn {s t : State} (hmoves : EngineMovesNext s)
    (h : engineTurn (dropTurn s) = .next t) : StepEffect s t := by
  rcases engineTurn_cases (dropTurn s) with
    ⟨hidle, hturn⟩ | ⟨hbusy, i, -, hturn⟩ | ⟨hbusy, -, hturn⟩
  · obtain rfl := Host.Outcome.next.inj (hturn.symm.trans h)
    exact .rests hmoves hidle
  · have hexec : exec i (dropTurn s) = .next t := hturn.symm.trans h
    rcases exec_cases i (dropTurn s) with ⟨e, he⟩ | ⟨-, -, -, -, he⟩ | ⟨-, -, he⟩ <;>
      obtain rfl := Host.Outcome.next.inj (he.symm.trans hexec)
    · exact .fails hmoves hbusy e
    · exact .writes hmoves hbusy _
    · exact .measures hmoves hbusy _
  · obtain rfl := Host.Outcome.next.inj (hturn.symm.trans h)
    exact .fails hmoves hbusy .illegalCmd

/-- A register write, by the register it reaches. -/
theorem stepEffect_of_regWrite {s : State} {ts : List Turn} {v : BitVec 64} (r : RegName)
    (h : s.turns = .host (.regWrite r.offset .w4 v) :: ts) :
    StepEffect s (withReply none (writeReg r (v.setWidth 32) (dropTurn s))) := by
  have hframe : HostFrame (dropTurn s) (dropTurn s) := ⟨rfl, rfl, rfl, rfl, rfl, rfl, rfl, rfl⟩
  cases r with
  | ctrl =>
    have hbit : (v.setWidth 32).getLsbD 2 = v.getLsbD 2 := getLsbD_writtenWord v (by decide)
    cases hsrst : v.getLsbD 2 with
    | true =>
      rw [writeReg, writeCtrl_of_srst (hbit.trans hsrst)]
      exact .softResets v ⟨ts, h⟩ hsrst
    | false =>
      rw [writeReg, writeCtrl_of_not_srst (hbit.trans hsrst)]
      exact .accesses hframe rfl
  | status => exact .clears v ⟨ts, h⟩ hframe rfl
  | cmd =>
    cases hbusy : s.status.busy with
    | true =>
      rw [writeReg, writeCmd_of_busy (s := dropTurn s) hbusy]
      exact .errs hframe rfl
    | false =>
      rw [writeReg, writeCmd_of_idle (s := dropTurn s) hbusy]
      exact .issues v ⟨ts, h⟩ hbusy
  | len => exact .accesses hframe rfl
  | srcAddr => exact .accesses hframe rfl
  | src2Addr => exact .accesses hframe rfl
  | dstAddr => exact .accesses hframe rfl
  | dstCap => exact .accesses hframe rfl
  | quality => exact .accesses hframe rfl
  | outLen => exact .errs hframe rfl
  | psnrLo => exact .errs hframe rfl
  | psnrHi => exact .errs hframe rfl
  | memsz => exact .errs hframe rfl

/-- Every step is one of these. -/
theorem stepEffect_of_step {s t : State} (h : step s = .next t) : StepEffect s t := by
  have hframe : HostFrame (dropTurn s) (dropTurn s) := ⟨rfl, rfl, rfl, rfl, rfl, rfl, rfl, rfl⟩
  rcases step_cases s with ⟨hmoves, hstep⟩ | ⟨tr, ts, hturns, hstep⟩ | ⟨ts, hturns, hstep⟩
  · exact stepEffect_of_engineTurn hmoves (hstep.symm.trans h)
  · obtain rfl := Host.Outcome.next.inj (hstep.symm.trans h)
    rcases hostStep_cases tr (dropTurn s) with
      ⟨r, hu⟩ | ⟨r, hu⟩ | ⟨off, v, r, rfl, hreg, hu⟩ | ⟨a, w, v, -, hidle, -, hu⟩
    · exact hu ▸ .accesses hframe rfl
    · exact hu ▸ .errs hframe rfl
    · obtain rfl := offset_of_regAt hreg
      exact hu ▸ stepEffect_of_regWrite r hturns
    · exact hu ▸ .stores _ _ _ hidle
  · obtain rfl := Host.Outcome.next.inj (hstep.symm.trans h)
    exact .hardResets ⟨ts, hturns⟩

/-- Settles O6. The engine's turn always answers a next state, and the two other turns do by
definition. -/
theorem noStepStops : Obligations.NoStepStops := by
  intro s
  rcases step_cases s with ⟨-, hstep⟩ | ⟨_, _, -, hstep⟩ | ⟨_, -, hstep⟩
  · obtain ⟨t, hturn, -⟩ := engineTurn_result (dropTurn s)
    exact ⟨t, hstep.trans hturn⟩
  · exact ⟨_, hstep⟩
  · exact ⟨_, hstep⟩

/-! ## The engine's turn (40_command.md R102, R104) -/

/-- Settles O4. The latched word's bytes decode as the word does, so of the engine's three cases only
the command's is left. -/
theorem stepRunsDecodedCommand : Obligations.StepRunsDecodedCommand := by
  intro s i hbusy hmoves hdec _
  have hword : decode (dropTurn s).latch.cmd = .ok i := (decodeBytes_wordBytes _).symm.trans hdec
  rw [step_of_engineMovesNext hmoves]
  rcases engineTurn_cases (dropTurn s) with ⟨hidle, -⟩ | ⟨-, j, hj, hturn⟩ | ⟨-, ⟨e, he⟩, -⟩
  · exact absurd hbusy (ne_true_of_eq_false hidle)
  · obtain rfl : j = i := Except.ok.inj (hj.symm.trans hword)
    exact hturn
  · cases he.symm.trans hword

/-- `withFetchWord` puts the engine's turn first, and using it up leaves the turns of before. -/
theorem engineFirst_moves (ts : List Turn) :
    (engineFirst ts = [] ∨ ∃ us, engineFirst ts = .engine :: us) ∧ (engineFirst ts).tail = ts := by
  cases ts with
  | nil => exact ⟨.inl rfl, rfl⟩
  | cons t ts => exact ⟨.inr ⟨_, rfl⟩, rfl⟩

/-- Settles O5. The prepared state is the issue of the word with the engine's turn first. -/
theorem issuedWordRunsNext : Obligations.IssuedWordRunsNext := by
  intro s i
  obtain ⟨hmoves, htail⟩ := engineFirst_moves s.turns
  have hword : BitVec.ofNat 32 ((encode i).toNat % 2 ^ 32) = encode i := by
    rw [Nat.mod_eq_of_lt (encode i).isLt, BitVec.ofNat_toNat, BitVec.setWidth_eq]
  have hdrop : dropTurn (s.withFetchWord 32 (encode i).toNat) = issue (encode i) s := by
    rw [State.withFetchWord, hword, dropTurn, htail]
    rfl
  have hlatched : (s.withFetchWord 32 (encode i).toNat).latch.cmd = encode i := hword
  have hdec : decodeBytes (latchedBytes (s.withFetchWord 32 (encode i).toNat)) = .ok i := by
    rw [latchedBytes, hlatched, decodeBytes_wordBytes, decode_encode]
  exact hdrop ▸ stepRunsDecodedCommand _ i rfl hmoves hdec rfl

/-- Settles O7. With BUSY = 0 the engine's turn is rest. -/
theorem engineIdleWhileNotBusy : Obligations.EngineIdleWhileNotBusy := by
  intro s hidle hmoves
  rw [step_of_engineMovesNext hmoves]
  rcases engineTurn_cases (dropTurn s) with ⟨-, hturn⟩ | ⟨hbusy, -⟩ | ⟨hbusy, -⟩
  · exact hturn
  · exact absurd hbusy (ne_true_of_eq_false hidle)
  · exact absurd hbusy (ne_true_of_eq_false hidle)

/-- The engine's turn while BUSY = 1 is a completion. -/
theorem completion_of_step {s t : State} (hbusy : s.status.busy = true) (hmoves : EngineMovesNext s)
    (h : step s = .next t) :
    CompletionFrame (dropTurn s) t ∧ t.status.busy = false ∧ t.status.done = true := by
  rw [step_of_engineMovesNext hmoves] at h
  obtain ⟨u, hturn, hu⟩ := engineTurn_result (dropTurn s)
  obtain rfl := Host.Outcome.next.inj (hturn.symm.trans h)
  rcases hu with ⟨hidle, -⟩ | ⟨-, hcompletes⟩
  · exact absurd hbusy (ne_true_of_eq_false hidle)
  · exact hcompletes

/-- Settles O13. A completion sets DONE and keeps CTRL. -/
theorem completionAssertsIrq : Obligations.CompletionAssertsIrq := by
  intro s t hbusy hmoves h hie
  obtain ⟨⟨hctrl, -⟩, -, hdone⟩ := completion_of_step hbusy hmoves h
  have henabled : t.ctrl.ie = true := (congrArg Ctrl.ie hctrl).trans hie
  rw [irq, henabled, hdone, Bool.and_self, Bool.true_or]

theorem CmdError.code_le_seven (e : CmdError) : e.code.toNat ≤ 7 := by
  cases e <;> decide

/-- Settles O21. Of the three completions only the error completion leaves a code. -/
theorem errorCompletionIsPrecise : Obligations.ErrorCompletionIsPrecise := by
  intro s t hbusy hmoves h hcode
  rw [step_of_engineMovesNext hmoves] at h
  rcases engineTurn_cases (dropTurn s) with ⟨hidle, -⟩ | ⟨-, i, -, hturn⟩ | ⟨-, -, hturn⟩
  · exact absurd hbusy (ne_true_of_eq_false hidle)
  · obtain ⟨e, rfl, -⟩ := exec_error_cases (hturn.symm.trans h) hcode
    exact ⟨raise_endsInError e _, e.code_le_seven⟩
  · obtain rfl := Host.Outcome.next.inj (hturn.symm.trans h)
    exact ⟨raise_endsInError _ _, CmdError.code_le_seven _⟩

/-! ## Fairness (R102) -/

/-- Every step uses up one turn. -/
theorem step_turns {s t : State} (h : step s = .next t) : t.turns = s.turns.tail := by
  cases stepEffect_of_step h with
  | accesses hframe => exact hframe.2.2.1
  | errs hframe => exact hframe.2.2.1
  | clears v _ hframe => exact hframe.2.2.1
  | softResets => exact softReset_turns _
  | _ => rfl

theorem runFor_succ_of_step {s t : State} (k : Nat) (h : step s = .next t) :
    runFor (k + 1) s = runFor k t := by
  rw [runFor, h]

/-- Settles O8, by induction on the turns still to come: as long as BUSY stays 1 a turn is used up, and
with none left the engine completes the command. -/
theorem runningCommandEnds : Obligations.RunningCommandEnds := by
  intro s
  induction hturns : s.turns generalizing s with
  | nil =>
    intro hbusy
    obtain ⟨t, ht⟩ := noStepStops s
    obtain ⟨-, hidle, -⟩ := completion_of_step hbusy (.inl hturns) ht
    exact ⟨1, t, by simp, runFor_succ_of_step 0 ht, hidle⟩
  | cons turn ts ih =>
    intro hbusy
    obtain ⟨t, ht⟩ := noStepStops s
    cases hafter : t.status.busy with
    | false => exact ⟨1, t, by simp, runFor_succ_of_step 0 ht, hafter⟩
    | true =>
      have hrest : t.turns = ts := by rw [step_turns ht, hturns, List.tail_cons]
      obtain ⟨k, u, hk, hrun, hidle⟩ := ih t hrest hafter
      exact ⟨k + 1, u, by simpa using hk, (runFor_succ_of_step k ht).trans hrun, hidle⟩

/-! ## BUSY, DONE and HERR -/

/-- What a step does to BUSY: it is kept, or falls at a completion or a reset, or rises at an issue. -/
theorem step_busy_cases {s t : State} (h : step s = .next t) :
    t.status.busy = s.status.busy ∨
      (t.status.busy = false ∧ ((EngineMovesNext s ∧ t.status.done = true) ∨ NextResets s)) ∨
      (t.status.busy = true ∧
        ∃ v, NextWrites 0x008 v s ∧ t.latch.cmd = v.setWidth 32 ∧ t.status.done = false) := by
  cases stepEffect_of_step h with
  | rests => exact .inl rfl
  | fails hmoves => exact .inr (.inl ⟨rfl, .inl ⟨hmoves, rfl⟩⟩)
  | writes hmoves => exact .inr (.inl ⟨rfl, .inl ⟨hmoves, rfl⟩⟩)
  | measures hmoves => exact .inr (.inl ⟨rfl, .inl ⟨hmoves, rfl⟩⟩)
  | accesses _ hstatus => exact .inl (by rw [hstatus])
  | errs _ hstatus => exact .inl (by rw [hstatus, Status.withHerr_busy])
  | clears v _ _ hstatus => exact .inl (by rw [hstatus, Status.clear_busy])
  | issues v hwrite => exact .inr (.inr ⟨rfl, v, hwrite, rfl, rfl⟩)
  | stores => exact .inl rfl
  | softResets v hwrite hsrst => exact .inr (.inl ⟨rfl, .inr (.inr ⟨v, hwrite, hsrst⟩)⟩)
  | hardResets hreset => exact .inr (.inl ⟨rfl, .inr (.inl hreset)⟩)

/-- Settles O9. BUSY is neither kept nor raised, so it fell in one of the two ways. -/
theorem busyFallsOnlyAtCompletionOrReset : Obligations.BusyFallsOnlyAtCompletionOrReset := by
  intro s t h hbusy hafter
  rcases step_busy_cases h with hkept | ⟨-, hfall⟩ | ⟨hrise, -⟩
  · cases hafter.symm.trans (hkept.trans hbusy)
  · exact hfall
  · cases hafter.symm.trans hrise

/-- The fields R236 speaks of, in a host transaction's frame. -/
theorem HostFrame.undisturbed {s u : State} (h : HostFrame (dropTurn s) u) :
    u.mem = s.mem ∧ u.latch = s.latch ∧ u.cmd = s.cmd ∧ u.outLen = s.outLen ∧
      u.psnrLo = s.psnrLo ∧ u.psnrHi = s.psnrHi := by
  obtain ⟨hmem, -, -, hlatch, hcmd, hout, hlo, hhi⟩ := h
  exact ⟨hmem, hlatch, hcmd, hout, hlo, hhi⟩

/-- Settles O10. With BUSY = 1 before and after, the step was a host transaction that neither stored
nor issued. -/
theorem runningCommandUndisturbed : Obligations.RunningCommandUndisturbed := by
  intro s t h hbusy hafter
  cases stepEffect_of_step h with
  | rests _ hidle => exact absurd hbusy (ne_true_of_eq_false hidle)
  | fails => cases hafter
  | writes => cases hafter
  | measures => cases hafter
  | accesses hframe => exact hframe.undisturbed
  | errs hframe => exact hframe.undisturbed
  | clears v _ hframe => exact hframe.undisturbed
  | issues v _ hidle => exact absurd hbusy (ne_true_of_eq_false hidle)
  | stores a n v hidle => exact absurd hbusy (ne_true_of_eq_false hidle)
  | softResets => cases hafter
  | hardResets => cases hafter

/-- DONE after a step was there before, or the engine completed a running command. -/
theorem step_done_cases {s t : State} (h : step s = .next t) (hafter : t.status.done = true) :
    s.status.done = true ∨ (s.status.busy = true ∧ EngineMovesNext s) := by
  cases stepEffect_of_step h with
  | rests => exact .inl hafter
  | fails hmoves hbusy => exact .inr ⟨hbusy, hmoves⟩
  | writes hmoves hbusy => exact .inr ⟨hbusy, hmoves⟩
  | measures hmoves hbusy => exact .inr ⟨hbusy, hmoves⟩
  | accesses _ hstatus => exact .inl (hstatus ▸ hafter)
  | errs _ hstatus =>
    rw [hstatus, Status.withHerr_done] at hafter
    exact .inl hafter
  | clears v _ _ hstatus =>
    rw [hstatus, Status.clear_done] at hafter
    exact .inl (Bool.and_elim_left hafter)
  | issues => cases hafter
  | stores => exact .inl hafter
  | softResets => cases hafter
  | hardResets => cases hafter

/-- Settles O11. DONE rises only with the engine, and BUSY is neither kept nor dropped, so it rose at an
issue. -/
theorem doneNeedsAnIssuedCommand : Obligations.DoneNeedsAnIssuedCommand := by
  refine fun s t h => ⟨fun hdone hafter => ?_, fun hidle hafter => ?_⟩
  · rcases step_done_cases h hafter with hbefore | hcompletes
    · cases hdone.symm.trans hbefore
    · exact hcompletes
  · rcases step_busy_cases h with hkept | ⟨hfall, -⟩ | ⟨-, hissue⟩
    · cases hafter.symm.trans (hkept.trans hidle)
    · cases hafter.symm.trans hfall
    · exact hissue

/-- HERR before a step is there after it, unless a STATUS write cleared it or the block was reset. -/
theorem step_herr_cases {s t : State} (h : step s = .next t) (hherr : s.status.herr = true) :
    t.status.herr = true ∨ (∃ v, NextWrites 0x004 v s ∧ v.getLsbD 8 = true) ∨ NextResets s := by
  cases stepEffect_of_step h with
  | rests => exact .inl hherr
  | fails => exact .inl hherr
  | writes => exact .inl hherr
  | measures => exact .inl hherr
  | accesses _ hstatus => exact .inl (hstatus ▸ hherr)
  | errs _ hstatus => exact .inl (by rw [hstatus, Status.withHerr_herr])
  | clears v hwrite _ hstatus =>
    cases hbit : v.getLsbD 8 with
    | true => exact .inr (.inl ⟨v, hwrite, hbit⟩)
    | false =>
      refine .inl ?_
      rw [hstatus, Status.clear_herr, hherr, getLsbD_writtenWord v (by decide), hbit]
      rfl
  | issues => exact .inl hherr
  | stores => exact .inl hherr
  | softResets v hwrite hsrst => exact .inr (.inr (.inr ⟨v, hwrite, hsrst⟩))
  | hardResets hreset => exact .inr (.inr (.inl hreset))

/-- Settles O12. -/
theorem herrStaysUntilCleared : Obligations.HerrStaysUntilCleared := by
  intro s t h hherr hafter
  rcases step_herr_cases h hherr with hkept | hcleared
  · cases hafter.symm.trans hkept
  · exact hcleared

/-! ## The resets (70_reset_and_hazards.md R230, R231, R234) -/

/-- Settles O44. The cleared cells leave every byte to the new draw. -/
theorem hardResetEffect : Obligations.HardResetEffect := by
  intro s ts hturns
  refine ⟨hardReset (dropTurn s), ?_, ?_, rfl, fun a => rfl⟩
  · rw [step, hturns]
  · have hrest : (dropTurn s).turns = ts := by rw [dropTurn, hturns, List.tail_cons]
    rw [← hrest]
    rfl

/-- The step of a turn that resets is one of the two resets. -/
theorem step_of_nextResets {s t : State} (hreset : NextResets s) (h : step s = .next t) :
    t = hardReset (dropTurn s) ∨ t = withReply none (softReset (dropTurn s)) := by
  rcases hreset with ⟨ts, hturns⟩ | ⟨v, ⟨ts, hturns⟩, hsrst⟩
  · rw [step, hturns] at h
    exact .inl (Host.Outcome.next.inj h).symm
  · have hdoes := hostDoes_softReset hsrst (dropTurn s)
    rw [hostDoes_iff] at hdoes
    rw [step, hturns] at h
    exact .inr ((Host.Outcome.next.inj h).symm.trans hdoes)

/-- Settles O45. -/
theorem idleAfterReset : Obligations.IdleAfterReset := by
  intro s t hreset h
  rcases step_of_nextResets hreset h with rfl | rfl
  · exact ⟨rfl, irq_of_disabled rfl, rfl, rfl⟩
  · exact ⟨rfl, irq_of_disabled rfl, rfl, rfl⟩

/-! ## MEM_BYTES (10_state.md R36) -/

/-- Settles O48. Stores, scrambles and resets keep the size of MEM; every other effect keeps MEM. -/
theorem memorySizeIsConstant : Obligations.MemorySizeIsConstant := by
  refine ⟨fun s t h => ?_, fun s => toNat_readReg_memsz⟩
  cases stepEffect_of_step h with
  | writes => exact writeBytes_size ..
  | accesses hframe => exact congrArg Memory.size hframe.1
  | errs hframe => exact congrArg Memory.size hframe.1
  | clears v _ hframe => exact congrArg Memory.size hframe.1
  | stores => exact writeNat_size ..
  | softResets => exact softReset_mem_size _
  | _ => rfl

/-! ## The invariant, part by part -/

theorem softReset_mem_wf {s : State} (h : s.mem.wf) : (softReset s).mem.wf := by
  cases hbusy : s.status.busy with
  | false => rwa [softReset_mem_idle s hbusy]
  | true =>
    rw [softReset_mem_busy s hbusy]
    exact writeBytes_wf _ _ h

/-- No step leaves the canonical form of MEM. -/
theorem step_keeps_mem_wf {s t : State} (hwf : s.mem.wf) (h : step s = .next t) : t.mem.wf := by
  cases stepEffect_of_step h with
  | rests => exact hwf
  | fails => exact hwf
  | writes => exact writeBytes_wf _ _ hwf
  | measures => exact hwf
  | accesses hframe => exact hframe.1 ▸ hwf
  | errs hframe => exact hframe.1 ▸ hwf
  | clears v _ hframe => exact hframe.1 ▸ hwf
  | issues => exact hwf
  | stores => exact writeNat_wf _ _ _ hwf
  | softResets => exact softReset_mem_wf hwf
  | hardResets => exact clear_wf _ hwf

theorem statusLegal_failed (e : CmdError) (t : Status) : StatusLegal (t.failed e) :=
  ⟨e.code_le_seven, iff_of_true rfl e.code_ne_zero, Bool.noConfusion⟩

/-- A status with no error shown and no DONE while BUSY. -/
theorem statusLegal_of_no_error {t : Status} (hcode : t.errcode = 0) (herr : t.err = false)
    (hdone : t.busy = true → t.done = false) : StatusLegal t := by
  refine ⟨by rw [hcode]; decide, ?_, fun hbusy => ⟨hdone hbusy, herr⟩⟩
  rw [hcode, herr]
  decide

/-- A STATUS write clears ERR and ERRCODE together and sets nothing (10_state.md R29). -/
theorem statusLegal_clear {t : Status} (v : Word) (h : StatusLegal t) :
    StatusLegal (t.clear v) := by
  obtain ⟨hcode, herr, hrunning⟩ := h
  have hclean (hbusy : t.busy = true) : (t.clear v).done = false := by
    rw [Status.clear_done, (hrunning hbusy).1, Bool.false_and]
  cases hbit : v.getLsbD 2 with
  | true =>
    refine statusLegal_of_no_error ?_ ?_ hclean
    · rw [Status.clear_errcode, hbit, if_pos rfl]
    · rw [Status.clear_err, hbit, Bool.not_true, Bool.and_false]
  | false =>
    have hkeptErr : (t.clear v).err = t.err := by
      rw [Status.clear_err, hbit, Bool.not_false, Bool.and_true]
    have hkeptCode : (t.clear v).errcode = t.errcode := by
      rw [Status.clear_errcode, hbit, if_neg Bool.false_ne_true]
    rw [StatusLegal, hkeptErr, hkeptCode]
    exact ⟨hcode, herr, fun hbusy => ⟨hclean hbusy, (hrunning hbusy).2⟩⟩

theorem step_keeps_statusLegal {s t : State} (hlegal : StatusLegal s.status)
    (h : step s = .next t) : StatusLegal t.status := by
  cases stepEffect_of_step h with
  | rests => exact hlegal
  | fails _ _ e => exact statusLegal_failed e _
  | writes => exact statusLegal_of_no_error rfl rfl Bool.noConfusion
  | measures => exact statusLegal_of_no_error rfl rfl Bool.noConfusion
  | accesses _ hstatus => exact hstatus ▸ hlegal
  | errs _ hstatus => exact hstatus ▸ hlegal
  | clears v _ _ hstatus => exact hstatus ▸ statusLegal_clear _ hlegal
  | issues => exact statusLegal_of_no_error rfl rfl fun _ => rfl
  | stores => exact hlegal
  | softResets => exact statusLegal_of_no_error rfl rfl fun _ => rfl
  | hardResets => exact statusLegal_of_no_error rfl rfl fun _ => rfl

/-- A host transaction's frame keeps the running word shown when it raises no BUSY. -/
theorem HostFrame.runningWordShown {s u : State} (hframe : HostFrame (dropTurn s) u)
    (hbusy : u.status.busy = s.status.busy) (h : RunningWordShown s) : RunningWordShown u := by
  obtain ⟨-, hlatch, hcmd, -⟩ := hframe.undisturbed
  intro hrunning
  rw [hlatch, hcmd]
  exact h (hbusy.symm.trans hrunning)

theorem step_keeps_runningWordShown {s t : State} (hshown : RunningWordShown s)
    (h : step s = .next t) : RunningWordShown t := by
  cases stepEffect_of_step h with
  | rests => exact hshown
  | fails => exact Bool.noConfusion
  | writes => exact Bool.noConfusion
  | measures => exact Bool.noConfusion
  | accesses hframe hstatus => exact hframe.runningWordShown (by rw [hstatus]) hshown
  | errs hframe hstatus =>
    exact hframe.runningWordShown (by rw [hstatus, Status.withHerr_busy]) hshown
  | clears v _ hframe hstatus =>
    exact hframe.runningWordShown (by rw [hstatus, Status.clear_busy]) hshown
  | issues => exact fun _ => rfl
  | stores => exact hshown
  | softResets => exact Bool.noConfusion
  | hardResets => exact Bool.noConfusion

/-- The soft reset uses up a draw at most, and MEM keeps its own. -/
theorem softReset_drawsFresh {s : State} (h : DrawsFresh s) : DrawsFresh (softReset s) := by
  rw [DrawsFresh] at h ⊢
  cases hbusy : s.status.busy with
  | false => rwa [softReset_mem_idle s hbusy, softReset_draws_idle s hbusy]
  | true =>
    rw [softReset_mem_busy s hbusy, softReset_draws_busy s hbusy, scrambleWindow_mem,
      writeBytes_epoch]
    omega

theorem HostFrame.drawsFresh {s u : State} (hframe : HostFrame (dropTurn s) u) (h : DrawsFresh s) :
    DrawsFresh u := by
  obtain ⟨hmem, hdraws, -⟩ := hframe
  rw [DrawsFresh, hmem, hdraws]
  exact h

theorem step_keeps_drawsFresh {s t : State} (hfresh : DrawsFresh s) (h : step s = .next t) :
    DrawsFresh t := by
  cases stepEffect_of_step h with
  | rests => exact hfresh
  | fails => exact hfresh
  | writes => exact (writeBytes_epoch ..).trans_lt hfresh
  | measures => exact hfresh
  | accesses hframe => exact hframe.drawsFresh hfresh
  | errs hframe => exact hframe.drawsFresh hfresh
  | clears v _ hframe => exact hframe.drawsFresh hfresh
  | issues => exact hfresh
  | stores => exact (writeBytes_epoch ..).trans_lt hfresh
  | softResets => exact softReset_drawsFresh (s := dropTurn s) hfresh
  | hardResets => exact Nat.lt_succ_self s.draws

/-- Settles O46. Each part of the invariant is kept on its own. -/
theorem stepKeepsInvariant : Obligations.StepKeepsInvariant := by
  intro s t ⟨hwf, hlegal, hshown, hfresh⟩ h
  exact ⟨step_keeps_mem_wf hwf h, step_keeps_statusLegal hlegal h,
    step_keeps_runningWordShown hshown h, step_keeps_drawsFresh hfresh h⟩

/-- Settles O47. -/
theorem resetMeetsInvariant : Obligations.ResetMeetsInvariant :=
  ⟨reset_mem_wf, statusLegal_of_no_error rfl rfl fun _ => rfl, fun _ => rfl, Nat.zero_lt_one⟩

end Sys2Proof.Machine

/-! PROOFS. The commands that succeed (40_command.md R113): with every check passed each stores its
output, or PSNR its result, and an operand a command does not read does not matter (10_state.md R32,
R33). -/

namespace Sys2Proof.Machine

/-! ## The commands that write MEM -/

theorem commitBytes_statusSuccess (out : List Byte) (s : State) :
    StatusSuccess s (commitBytes out s) := ⟨rfl, rfl, rfl, rfl, rfl⟩

/-- With every check passed, a command that writes MEM stores its output and succeeds. -/
theorem writesAndSucceeds_of_ready {i : Instr} {s : State} (hi : i ≠ .psnr)
    (hparams : ParametersReady i s) (hready : WindowReady s (sourceLen i s))
    (hcap : (outputOf i s).length ≤ s.latch.cap.toNat) : WritesAndSucceeds i s (outputOf i s) := by
  have hexec := exec_of_ready hi hparams hready hcap
  obtain ⟨-, hwin, -⟩ := hready
  obtain ⟨hstored, hkept, hlen⟩ := commitBytes_writes hwin hcap
  exact ⟨_, hexec, hstored, hkept, hlen, rfl, rfl, commitBytes_statusSuccess _ s,
    commitBytes_frame _ s⟩

/-- The same for a command whose output is coefficients: each reads back through `canon`. -/
theorem storesCoefficients_of_ready {i : Instr} {s : State} {T : List F64} (hi : i ≠ .psnr)
    (hout : outputOf i s = f64sBytes T) (hparams : ParametersReady i s)
    (hready : WindowReady s (sourceLen i s)) (hcap : 8 * T.length ≤ s.latch.cap.toNat) :
    StoresCoefficients i s T := by
  have hbytes : (f64sBytes T).length = 8 * T.length := f64sBytes_length T
  have hexec := exec_of_ready hi hparams hready (by rwa [hout, hbytes])
  rw [hout] at hexec
  obtain ⟨-, hwin, -⟩ := hready
  obtain ⟨-, hkept, hlen⟩ := commitBytes_writes (out := f64sBytes T) hwin (by rwa [hbytes])
  rw [hbytes] at hkept hlen
  refine ⟨_, hexec, fun k hk => ?_, hkept, hlen, rfl, rfl, commitBytes_statusSuccess _ s,
    commitBytes_frame _ s⟩
  rw [RegionIn] at hwin
  exact readF64_writeBytes s.mem _ T k hk (by omega)

theorem sourceLen_bytes {i : Instr} (h : elemBytes i = 1) (s : State) :
    sourceLen i s = s.latch.len.toNat := by
  rw [sourceLen, h, Nat.one_mul]

/-- Settles O14. -/
theorem rleEncCompletes : Obligations.RleEncCompletes := fun s hready hcap =>
  writesAndSucceeds_of_ready (i := .rleEnc) (by decide) trivial
    (sourceLen_bytes (i := .rleEnc) rfl s ▸ hready) hcap

/-- Settles O15. -/
theorem rleDecCompletes : Obligations.RleDecCompletes := fun s heven hready hcap =>
  writesAndSucceeds_of_ready (i := .rleDec) (by decide) heven
    (sourceLen_bytes (i := .rleDec) rfl s ▸ hready) hcap

/-- Settles O16. -/
theorem dctCompletes : Obligations.DctCompletes := by
  intro s haligned hready hcap
  have hlen : (dct Config.cosFn (sourceBytes s)).length = s.latch.len.toNat := by
    rw [dct_length, sourceBytes, readBytes_length]
  exact ⟨hlen, storesCoefficients_of_ready (i := .dct) (by decide) rfl haligned
    (sourceLen_bytes (i := .dct) rfl s ▸ hready) (by rwa [hlen])⟩

/-- The two inverse transforms write a byte per coefficient. -/
theorem idct_sourceCoeffs_length (rnd : Bool) (s : State) :
    (idct Config.cosFn rnd (sourceCoeffs s)).length = s.latch.len.toNat := by
  rw [idct_length, sourceCoeffs, readF64s_length]

/-- Settles O17. -/
theorem idctCompletes : Obligations.IdctCompletes := by
  intro s haligned hready hcap
  have hlen := idct_sourceCoeffs_length false s
  exact ⟨hlen, writesAndSucceeds_of_ready (i := .idct) (by decide) haligned hready
    (hlen.trans_le hcap)⟩

/-- Settles O18. -/
theorem idctTCompletes : Obligations.IdctTCompletes := by
  intro s haligned hready hcap
  have hlen := idct_sourceCoeffs_length true s
  exact ⟨hlen, writesAndSucceeds_of_ready (i := .idctT) (by decide) haligned hready
    (hlen.trans_le hcap)⟩

/-- Settles O19. -/
theorem quantCompletes : Obligations.QuantCompletes := by
  intro s hq hsrc hdst hready hcap
  have hlen : (quant s.latch.q.toInt (sourceCoeffs s)).length = s.latch.len.toNat := by
    rw [quant_length, sourceCoeffs, readF64s_length]
  exact ⟨hlen, storesCoefficients_of_ready (i := .quant) (by decide) rfl ⟨hq, hsrc, hdst⟩ hready
    (by rwa [hlen])⟩

/-! ## PSNR (41_psnr.md R130) -/

/-- PSNR checks its two sources for RANGE and nothing else. -/
theorem exec_psnr_of_ready {s : State}
    (hsrc : RegionIn s.mem.size s.latch.src.toNat s.latch.len.toNat)
    (hsrc2 : RegionIn s.mem.size s.latch.src2.toNat s.latch.len.toNat) :
    exec .psnr s = .next (commitPsnr (psnrOf s) s) := by
  have hmem : memoryError (psnrOperands s.latch) s.latch s.mem.size = none := by
    refine (memoryError_none ..).2 ⟨List.forall_mem_nil _, fun r hr => ?_, nofun, nofun⟩
    rcases (mem_sources_operandsOf .psnr s r).1 hr with rfl | ⟨-, rfl⟩
    · exact sourceLen_bytes (i := .psnr) rfl s ▸ hsrc
    · exact hsrc2
  rw [exec, execPsnr, hmem]
  rfl

/-- The two result registers hold the two halves of the result (10_state.md R35). -/
theorem commitPsnr_result (r : F64) (s : State) :
    (commitPsnr r s).psnrHi ++ (commitPsnr r s).psnrLo = canon r := by
  rw [commitPsnr_psnrHi, commitPsnr_psnrLo]
  apply BitVec.eq_of_getLsbD_eq
  intro k hk
  rw [BitVec.getLsbD_append, BitVec.getLsbD_extractLsb', BitVec.getLsbD_extractLsb']
  by_cases hlow : k < 32
  · simp [hlow]
  · simp [hlow, show k - 32 < 32 by omega, show 32 + (k - 32) = k by omega]

/-- Settles O20. -/
theorem psnrCompletes : Obligations.PsnrCompletes := fun s hsrc hsrc2 =>
  ⟨_, exec_psnr_of_ready hsrc hsrc2, commitPsnr_result _ s, rfl, rfl, ⟨rfl, rfl, rfl, rfl, rfl⟩,
    commitPsnr_frame _ s⟩

/-! ## Operands a command does not read -/

/-- Settles O30. Neither the checks nor the commit of a command depend on the operand it does not
read. -/
theorem unreadOperandsDoNotMatter : Obligations.UnreadOperandsDoNotMatter := by
  intro i s t x y h
  rw [exec_latch h]
  refine ⟨fun hi => ?_, fun hi => ?_⟩
  · have hL : firstError i { s with latch := { s.latch with src2 := x } } = firstError i s ∧
        commitOf i { s with latch := { s.latch with src2 := x } } =
          { commitOf i s with latch := { s.latch with src2 := x } } := by
      cases i with
      | psnr => exact absurd rfl hi
      | _ => exact ⟨rfl, rfl⟩
    exact exec_withLatch hL.1 hL.2 h
  · subst hi
    have herr : firstError .psnr { s with latch := { s.latch with dst := x, cap := y } } =
        firstError .psnr s := rfl
    exact exec_withLatch herr rfl h

end Sys2Proof.Machine

/-! PROOFS. The host's ports, continued: refused and accepted register writes (10_state.md R25, R31 to
R34), a load after a store, and the byte order of a coefficient (20_memory.md R62 to R64). -/

namespace Sys2Proof.Machine

/-! ## Register writes -/

/-- R25, a write that reaches no register. -/
theorem hostDoes_regWrite_unmapped {off : BitVec 12} {w : Width} (h : accessedReg off w = none)
    (v : BitVec 64) (s : State) :
    HostDoes (.regWrite off w v) s (withReply none (hostError s)) := by
  rw [hostDoes_iff, hostStep, regWrite, h]

/-- Settles O32. A refused write reaches no register, or one of the four that are read-only. -/
theorem regWriteRefusals : Obligations.RegWriteRefusals := by
  intro s v
  constructor
  · intro off w hbad
    have hnone : accessedReg off w = none := (accessedReg_none_iff off w).2 hbad
    exact ⟨_, hostDoes_regWrite_unmapped hnone v s, refusedAccess_hostError none s⟩
  · intro off hoff
    have hmap : off ∈ [RegName.outLen, .psnrLo, .psnrHi, .memsz].map RegName.offset := hoff
    obtain ⟨r, hr, rfl⟩ := List.mem_map.1 hmap
    have hreadOnly : writeReg r (v.setWidth 32) s = hostError s := by
      simp only [List.mem_cons, List.not_mem_nil, or_false] at hr
      rcases hr with rfl | rfl | rfl | rfl
      all_goals rfl
    exact ⟨_, hreadOnly ▸ hostDoes_regWrite_offset r v s, refusedAccess_hostError none s⟩

/-- Settles O33. The write effect of a parameter register is its one field. -/
theorem parameterWritesAccepted : Obligations.ParameterWritesAccepted := fun s v =>
  ⟨hostDoes_regWrite_offset .len v s, hostDoes_regWrite_offset .srcAddr v s,
    hostDoes_regWrite_offset .src2Addr v s, hostDoes_regWrite_offset .dstAddr v s,
    hostDoes_regWrite_offset .dstCap v s, hostDoes_regWrite_offset .quality v s⟩

/-! ## A load after a store -/

/-- A number of `n` bytes has `8 n` bits. -/
theorem pow_256_eq (n : Nat) : 256 ^ n = 2 ^ (8 * n) := by
  rw [Nat.pow_mul]

/-- Settles O40. The store leaves BUSY and MEM_BYTES as they are, so the load is accepted too. -/
theorem storeThenLoad : Obligations.StoreThenLoad := by
  intro s u a w v hidle hfit hstore
  have haccepted := hostDoes_memWrite_of_accepted (memRefused_eq_false hidle hfit) v
  rw [hostDoes_iff] at hstore haccepted
  obtain rfl := hstore.symm.trans haccepted
  have hfit' : a.toNat + w.bytes ≤ (s.mem.writeNat a.toNat w.bytes v.toNat).size := by
    rwa [writeNat_size]
  refine ⟨_, hostDoes_memRead_of_accepted (memRefused_eq_false hidle hfit'), ?_⟩
  rw [toNat_ofNat_readNat, readNat_writeNat _ _ _ _ (.inr hfit), pow_256_eq]

/-! ## The byte order of a coefficient (R62) -/

/-- A coefficient is the number its eight bytes make. -/
theorem toNat_readF64 (m : Memory) (a : Nat) : (m.readF64 a).toNat = m.readNat a 8 :=
  toNat_ofNat_readNat m a .w8

/-- Part of a coefficient is its bits from there on. -/
theorem readNat_within_readF64 (m : Memory) (a : Nat) {k n : Nat} (h : k + n ≤ 8) :
    m.readNat (a + k) n = (m.readF64 a).toNat / 2 ^ (8 * k) % 2 ^ (8 * n) := by
  rw [toNat_readF64, readNat_within m a k n 8 h, pow_256_eq, pow_256_eq]

/-- Settles O41. A single byte and a host read are both a shorter number inside the coefficient's. -/
theorem coefficientByteOrder : Obligations.CoefficientByteOrder := by
  refine ⟨fun m a k hk => ?_, fun s a b w k hidle hb hwithin hfit => ?_⟩
  · have hbyte : (m.read (a + k)).toNat = m.readNat (a + k) 1 := by simp [Memory.readNat]
    apply BitVec.eq_of_toNat_eq
    rw [hbyte, readNat_within_readF64 m a (by omega), BitVec.extractLsb'_toNat,
      Nat.shiftRight_eq_div_pow]
  · refine ⟨_, hostDoes_memRead_of_accepted (memRefused_eq_false hidle hfit), ?_⟩
    rw [toNat_ofNat_readNat, hb, readNat_within_readF64 s.mem a hwithin]

end Sys2Proof.Machine

/-! PROOFS. The one rounding of binary64 (00_scope.md R10): the rounded quotient is the nearest datum,
ties go to the even significand, and overflow starts half a unit past the largest finite datum. Sums,
products, quotients and square roots are instances of it. -/

namespace Sys2Proof.Machine

/-! ## The nearest integer -/

/-- `divNearestEven` is at least as near to the quotient as any other integer, and even when another is
equally near. -/
theorem divNearestEven_nearest (num : Nat) {den : Nat} (hden : 0 < den) (k : Nat) :
    ((divNearestEven num den * den : Int) - num).natAbs ≤ ((k * den : Int) - num).natAbs ∧
      (((divNearestEven num den * den : Int) - num).natAbs = ((k * den : Int) - num).natAbs →
        k ≠ divNearestEven num den → divNearestEven num den % 2 = 0) := by
  obtain ⟨hupper, hlower, heven⟩ := divNearestEven_spec num hden
  generalize divNearestEven num den = r at *
  rcases Nat.lt_trichotomy k r with hlt | rfl | hgt
  · have hstep : k * den + den ≤ r * den := by
      rw [← Nat.succ_mul]
      exact Nat.mul_le_mul_right den hlt
    rw [← Nat.cast_mul, ← Nat.cast_mul]
    exact ⟨by omega, fun heq _ => heven (by omega)⟩
  · exact ⟨le_rfl, fun _ hne => absurd rfl hne⟩
  · have hstep : r * den + den ≤ k * den := by
      rw [← Nat.succ_mul]
      exact Nat.mul_le_mul_right den hgt
    rw [← Nat.cast_mul, ← Nat.cast_mul]
    exact ⟨by omega, fun heq _ => heven (by omega)⟩

/-- The same as a comparison with midpoints: none between `divNearestEven` and another integer lies on
the wrong side of the quotient. -/
theorem divNearestEven_midpoint (num : Nat) {den : Nat} (hden : 0 < den) (k : Nat) :
    (divNearestEven num den < k →
        2 * num ≤ divNearestEven num den * den + k * den) ∧
      (k < divNearestEven num den → divNearestEven num den * den + k * den ≤ 2 * num) := by
  have hnear := (divNearestEven_nearest num hden k).1
  rw [← Nat.cast_mul, ← Nat.cast_mul] at hnear
  refine ⟨fun hlt => ?_, fun hlt => ?_⟩
  · have := Nat.mul_lt_mul_of_pos_right hlt hden
    omega
  · have := Nat.mul_lt_mul_of_pos_right hlt hden
    omega

/-! ## The finite data around a rounded quotient -/

/-- A finite datum is a whole number of steps of `2 ^ sh` units, or lies below every datum that needs
such a step. -/
theorem fmag_multiple_or_lt {y : F64} (hy : isFinite y = true) (sh : Nat) :
    (∃ k, fmag y = k * 2 ^ sh) ∨ (0 < sh ∧ fmag y < 2 ^ 52 * 2 ^ sh) := by
  obtain ⟨m, e, hm, -, -, hmag, -⟩ := fmag_parts hy
  rcases Nat.lt_or_ge e sh with hlt | hge
  · refine .inr ⟨by omega, ?_⟩
    calc fmag y = m * 2 ^ e := hmag
      _ < 2 ^ 53 * 2 ^ e := Nat.mul_lt_mul_of_pos_right hm (by positivity)
      _ = 2 ^ 52 * 2 ^ (e + 1) := by ring
      _ ≤ 2 ^ 52 * 2 ^ sh := Nat.mul_le_mul_left _ (Nat.pow_le_pow_right (by norm_num) hlt)
  · refine .inl ⟨m * 2 ^ (e - sh), ?_⟩
    rw [hmag, Nat.mul_assoc, ← pow_add, Nat.sub_add_cancel hge]

/-- When bits are shifted out, the quotient is at least the least significand at that shift. -/
theorem significand_step_le {num den : Nat} (hden : 0 < den) (hshift : 0 < roundShift num den) :
    2 ^ 52 * (den * 2 ^ roundShift num den) ≤ num := by
  rcases roundShift_spec num den with ⟨hzero, -⟩ | ⟨-, hlow, -⟩
  · omega
  · calc 2 ^ 52 * (den * 2 ^ roundShift num den) = 2 ^ (roundShift num den + 52) * den := by ring
      _ ≤ num := (Nat.le_div_iff_mul_le hden).1 hlow

/-- The error of a rounding that does not overflow, in steps of its shift. -/
theorem roundingError_froundQ {neg : Bool} {num den : Nat} (hden : 0 < den)
    (hfin : isFinite (froundQ neg num den) = true) :
    roundingError num den (froundQ neg num den) =
      ((divNearestEven num (den * 2 ^ roundShift num den) *
        (den * 2 ^ roundShift num den : Nat) : Int) - num).natAbs := by
  rw [roundingError, fmag_froundQ hden ((isFinite_froundQ _ _ _).1 hfin)]
  push_cast
  ring_nf

theorem roundingError_of_multiple {num den k sh : Nat} {y : F64} (h : fmag y = k * 2 ^ sh) :
    roundingError num den y = ((k * (den * 2 ^ sh : Nat) : Int) - num).natAbs := by
  rw [roundingError, h]
  push_cast
  ring_nf

/-- No finite datum is nearer than the rounded one. -/
theorem roundingError_froundQ_le {neg : Bool} {num den : Nat} (hden : 0 < den)
    (hfin : isFinite (froundQ neg num den) = true) {y : F64} (hy : isFinite y = true) :
    roundingError num den (froundQ neg num den) ≤ roundingError num den y ∧
      (roundingError num den (froundQ neg num den) = roundingError num den y →
        fmag y ≠ fmag (froundQ neg num den) → ffrac (froundQ neg num den) % 2 = 0) := by
  have hstep : 0 < den * 2 ^ roundShift num den := by positivity
  have hbits := (isFinite_froundQ neg num den).1 hfin
  rw [roundingError_froundQ hden hfin]
  rcases fmag_multiple_or_lt hy (roundShift num den) with ⟨k, hk⟩ | ⟨hshift, hsmall⟩
  · obtain ⟨hnear, heven⟩ := divNearestEven_nearest num hstep k
    rw [roundingError_of_multiple hk]
    refine ⟨hnear, fun heq hne => ?_⟩
    have hsig := heven heq (by
      rintro rfl
      exact hne (hk.trans (fmag_froundQ hden hbits).symm))
    rw [roundBits] at hbits
    rw [ffrac_froundQ, roundBits]
    omega
  · have hlow := significand_step_le hden hshift
    have hnear := (divNearestEven_nearest num hstep (2 ^ 52)).1
    have hbelow : fmag y * den < 2 ^ 52 * (den * 2 ^ roundShift num den) := by
      calc fmag y * den < 2 ^ 52 * 2 ^ roundShift num den * den :=
            Nat.mul_lt_mul_of_pos_right hsmall hden
        _ = 2 ^ 52 * (den * 2 ^ roundShift num den) := by ring
    have hfar : ((divNearestEven num (den * 2 ^ roundShift num den) *
        (den * 2 ^ roundShift num den : Nat) : Int) - num).natAbs < roundingError num den y := by
      refine hnear.trans_lt ?_
      rw [roundingError]
      rw [← Nat.cast_mul, ← Nat.cast_mul]
      omega
    exact ⟨hfar.le, fun heq => absurd heq hfar.ne⟩

/-- A quotient of more than 53 bits is shifted by the bits past them. -/
theorem lt_roundShift_add {num den e : Nat} (he : 53 ≤ e) (h : 2 ^ e ≤ num / den) :
    e < roundShift num den + 53 := by
  rcases roundShift_spec num den with ⟨hzero, hsmall⟩ | ⟨-, -, hhigh⟩
  · have := (Nat.pow_lt_pow_iff_right Nat.one_lt_two).1 (h.trans_lt hsmall)
    omega
  · exact (Nat.pow_lt_pow_iff_right Nat.one_lt_two).1 (h.trans_lt hhigh)

/-! ## Overflow -/

/-- The pattern below the sign that a quotient is rounded to when nothing bounds the exponent. -/
def unboundedBits (num den : Nat) : Nat :=
  roundShift num den * 2 ^ 52 + divNearestEven num (den * 2 ^ roundShift num den)

theorem roundBits_eq_min (num den : Nat) :
    roundBits num den = min (unboundedBits num den) (2047 * 2 ^ 52) := rfl

/-- Half a unit short of `2 ^ (e + 54)` the significand is carried into the next exponent. -/
theorem le_unboundedBits {num den e : Nat} (hden : 0 < den)
    (h : (2 ^ 54 - 1) * 2 ^ e * den ≤ num) : (e + 3) * 2 ^ 52 ≤ unboundedBits num den := by
  have hquot : 2 ^ (e + 53) ≤ num / den := by
    rw [Nat.le_div_iff_mul_le hden]
    refine le_trans (Nat.mul_le_mul_right den ?_) h
    rw [Nat.add_comm, pow_add]
    exact Nat.mul_le_mul_right _ (by norm_num)
  have hshift : e + 1 ≤ roundShift num den := by
    have := lt_roundShift_add (by omega) hquot
    omega
  obtain ⟨-, hsig⟩ := significand_bounds num hden
  have hmin := hsig.resolve_left (by omega)
  have hstep : 0 < den * 2 ^ roundShift num den := by positivity
  obtain ⟨-, hlower, heven⟩ := divNearestEven_spec num hstep
  rw [unboundedBits]
  rcases hshift.eq_or_lt with heq | hlt
  · have hthreshold : (2 ^ 54 - 1) * (den * 2 ^ roundShift num den) ≤ 2 * num := by
      calc (2 ^ 54 - 1) * (den * 2 ^ roundShift num den)
          = 2 * ((2 ^ 54 - 1) * 2 ^ e * den) := by rw [← heq]; ring
        _ ≤ 2 * num := Nat.mul_le_mul_left 2 h
    generalize divNearestEven num (den * 2 ^ roundShift num den) = r at *
    generalize den * 2 ^ roundShift num den = d at *
    have hodd : r ≠ 2 ^ 53 - 1 := by
      intro htie
      have hproduct : r * d = (2 ^ 53 - 1) * d := by rw [htie]
      have hevenr := heven (.inr (by omega))
      omega
    have hr : 2 ^ 54 - 1 ≤ 2 * r + 1 := by
      by_contra hlt
      have hmul : (2 * r + 2) * d ≤ (2 ^ 54 - 1) * d := Nat.mul_le_mul_right d (by omega)
      have hexpand : (2 * r + 2) * d = 2 * (r * d) + 2 * d := by ring
      omega
    omega
  · omega

/-- Below that it is not. -/
theorem unboundedBits_lt {num den e : Nat} (hden : 0 < den)
    (h : num < (2 ^ 54 - 1) * 2 ^ e * den) : unboundedBits num den < (e + 3) * 2 ^ 52 := by
  have hquot : num / den < 2 ^ (e + 54) := by
    rw [Nat.div_lt_iff_lt_mul hden]
    refine h.trans_le (Nat.mul_le_mul_right den ?_)
    rw [Nat.add_comm, pow_add]
    exact Nat.mul_le_mul_right _ (by norm_num)
  have hshift : roundShift num den ≤ e + 1 := by
    rcases roundShift_spec num den with ⟨hzero, -⟩ | ⟨-, hlow, -⟩
    · omega
    · have := (Nat.pow_lt_pow_iff_right Nat.one_lt_two).1 (hlow.trans_lt hquot)
      omega
  obtain ⟨hsig, -⟩ := significand_bounds num hden
  have hstep : 0 < den * 2 ^ roundShift num den := by positivity
  obtain ⟨hupper, -⟩ := divNearestEven_spec num hstep
  rw [unboundedBits]
  rcases hshift.eq_or_lt with heq | hlt
  · have hthreshold : 2 * num < (2 ^ 54 - 1) * (den * 2 ^ roundShift num den) := by
      calc 2 * num < 2 * ((2 ^ 54 - 1) * 2 ^ e * den) := by omega
        _ = (2 ^ 54 - 1) * (den * 2 ^ roundShift num den) := by rw [heq]; ring
    generalize divNearestEven num (den * 2 ^ roundShift num den) = r at *
    generalize den * 2 ^ roundShift num den = d at *
    have hr : 2 * r < 2 ^ 54 := by
      refine Nat.lt_of_mul_lt_mul_right (a := d) ?_
      calc 2 * r * d = 2 * (r * d) := by ring
        _ < (2 ^ 54 - 1) * d + d := by omega
        _ = 2 ^ 54 * d := by ring
    omega
  · omega

/-- Overflow starts half a unit past the largest finite datum. -/
theorem roundBits_lt_iff (num : Nat) {den : Nat} (hden : 0 < den) :
    roundBits num den < 2047 * 2 ^ 52 ↔ num < (2 ^ 54 - 1) * 2 ^ 2044 * den := by
  rw [roundBits_eq_min]
  constructor
  · intro hbits
    by_contra hover
    have := le_unboundedBits hden (not_lt.1 hover)
    omega
  · intro hbelow
    have := unboundedBits_lt hden hbelow
    omega

/-! ## The rounding -/

/-- The one rounding is roundTiesToEven. -/
theorem nearestEven_froundQ (neg : Bool) (num : Nat) {den : Nat} (hden : 0 < den) :
    NearestEven neg num den (froundQ neg num den) := by
  refine ⟨fsign_froundQ _ _ _, fun hover => ?_, fun hbelow => ?_⟩
  · refine isInf_of_not_finite (isNaN_froundQ _ _ _) ?_
    rw [Bool.eq_false_iff, ne_eq, isFinite_froundQ, roundBits_lt_iff num hden]
    exact not_lt.2 hover
  · have hfin : isFinite (froundQ neg num den) = true := by
      rwa [isFinite_froundQ, roundBits_lt_iff num hden]
    exact ⟨hfin, fun y hy => roundingError_froundQ_le hden hfin hy⟩

/-- The sum of finite data whose exact sum is not zero. -/
theorem fadd_of_finite {x y : F64} (hx : isFinite x = true) (hy : isFinite y = true)
    (h : fval x + fval y ≠ 0) :
    fadd x y = froundQ (decide (fval x + fval y < 0)) (fval x + fval y).natAbs 1 := by
  rw [fadd, isNaN_of_finite hx, isNaN_of_finite hy, isInf_of_finite hx, isInf_of_finite hy,
    if_neg h]
  rfl

/-- Settles O55. Each operation is one rounding of its exact result. -/
theorem arithmeticRoundsOnce : Obligations.ArithmeticRoundsOnce := by
  intro x y hx hy
  refine ⟨fun hsum => ?_, ?_, fun hy0 => ?_⟩
  · rw [fadd_of_finite hx hy hsum]
    exact nearestEven_froundQ _ _ Nat.one_pos
  · rw [fmul_of_finite hx hy]
    exact nearestEven_froundQ _ _ funit_pos
  · rw [fdiv_of_finite hx hy hy0]
    exact nearestEven_froundQ _ _ (Nat.pos_of_ne_zero hy0)

/-! ## The square root -/

/-- The square root of a positive finite datum is one rounding of the sticky root. -/
theorem fsqrt_of_pos {x : F64} (hfin : isFinite x = true) (hpos : fsign x = false)
    (hmag : fmag x ≠ 0) : fsqrt x = froundQ false (stickyRoot (fmag x * funit)) 2 := by
  rw [fsqrt, isNaN_of_finite hfin, isInf_of_finite hfin, hpos, if_neg hmag]
  rfl

/-- What the sticky bit says: the root is exact, or it lies strictly between `isqrt n` and the next
integer. -/
theorem stickyRoot_cases (n : Nat) :
    (stickyRoot n = 2 * isqrt n ∧ isqrt n * isqrt n = n) ∨
      (stickyRoot n = 2 * isqrt n + 1 ∧ isqrt n * isqrt n < n) := by
  have hle := (isqrt_spec n).1
  rw [stickyRoot]
  split
  next hexact => exact .inl ⟨rfl, hexact⟩
  next hne => exact .inr ⟨rfl, hle.lt_of_ne hne⟩

theorem stickyRoot_div_two (n : Nat) : stickyRoot n / 2 = isqrt n := by
  rcases stickyRoot_cases n with ⟨h, -⟩ | ⟨h, -⟩ <;> omega

/-- An even number at or above the sticky root is at or above twice the root. -/
theorem four_mul_le_sq_of_stickyRoot_le {n T : Nat} (h : stickyRoot n ≤ T) (heven : T % 2 = 0) :
    4 * n ≤ T * T := by
  rcases stickyRoot_cases n with ⟨hs, hn⟩ | ⟨hs, -⟩
  · calc 4 * n = 4 * (isqrt n * isqrt n) := by rw [hn]
      _ = 2 * isqrt n * (2 * isqrt n) := by ring
      _ ≤ T * T := Nat.mul_le_mul (by omega) (by omega)
  · calc 4 * n ≤ 4 * ((isqrt n + 1) * (isqrt n + 1)) := by have := (isqrt_spec n).2; omega
      _ = 2 * (isqrt n + 1) * (2 * (isqrt n + 1)) := by ring
      _ ≤ T * T := Nat.mul_le_mul (by omega) (by omega)

/-- A number at or below the sticky root, without its sticky bit, is at or below twice the root. -/
theorem sq_le_four_mul_of_le_isqrt {n T : Nat} (h : T ≤ 2 * isqrt n) : T * T ≤ 4 * n := by
  calc T * T ≤ 2 * isqrt n * (2 * isqrt n) := Nat.mul_le_mul h h
    _ = 4 * (isqrt n * isqrt n) := by ring
    _ ≤ 4 * n := Nat.mul_le_mul_left 4 (isqrt_spec n).1

theorem two_pow_le_funit {b : Nat} (hb : b ≤ 1074) : 2 ^ b ≤ funit := by
  rw [funit]
  gcongr
  norm_num

/-- The root of a positive datum is so large in units that its rounding shifts bits out. -/
theorem roundShift_stickyRoot_pos {m : Nat} (hm : m ≠ 0) :
    0 < roundShift (stickyRoot (m * funit)) 2 := by
  have hroot : 2 ^ 53 ≤ isqrt (m * funit) := by
    by_contra hlt
    have hsquare : (isqrt (m * funit) + 1) * (isqrt (m * funit) + 1) ≤ 2 ^ 53 * 2 ^ 53 :=
      Nat.mul_le_mul (by omega) (by omega)
    have hunit : 2 ^ 53 * 2 ^ 53 ≤ m * funit := by
      rw [← pow_add]
      exact (two_pow_le_funit (by norm_num)).trans
        (Nat.le_mul_of_pos_left funit (Nat.pos_of_ne_zero hm))
    have := (isqrt_spec (m * funit)).2
    omega
  have := lt_roundShift_add le_rfl ((stickyRoot_div_two (m * funit)).symm ▸ hroot)
  omega

/-- A number of `2 b` bits has a root of `b` bits. -/
theorem stickyRoot_lt {n b : Nat} (h : n < 2 ^ b * 2 ^ b) : stickyRoot n < 2 ^ b * 2 := by
  have hroot : isqrt n < 2 ^ b := by
    by_contra hge
    have hsquare := Nat.mul_le_mul (not_lt.1 hge) (not_lt.1 hge)
    have := (isqrt_spec n).1
    omega
  have := stickyRoot_div_two n
  omega

theorem fmag_mul_funit_lt {x : F64} {b : Nat} (hexp : 52 + fexp x + 1074 ≤ b + b) :
    fmag x * funit < 2 ^ b * 2 ^ b := by
  calc fmag x * funit < 2 ^ (52 + fexp x) * funit :=
        Nat.mul_lt_mul_of_pos_right (fmag_lt x) funit_pos
    _ = 2 ^ (52 + fexp x + 1074) := (pow_add 2 (52 + fexp x) 1074).symm
    _ ≤ 2 ^ (b + b) := Nat.pow_le_pow_right Nat.two_pos hexp
    _ = 2 ^ b * 2 ^ b := pow_add 2 b b

/-- The root of a finite datum is far below overflow. -/
theorem isFinite_fsqrt {x : F64} (hfin : isFinite x = true) (hpos : fsign x = false)
    (hmag : fmag x ≠ 0) : isFinite (fsqrt x) = true := by
  have hexp := (isFinite_iff x).1 hfin
  have hn := fmag_mul_funit_lt (x := x) (b := 2097) (by omega)
  rw [fsqrt_of_pos hfin hpos hmag]
  exact isFinite_froundQ_of_lt le_rfl (stickyRoot_lt hn)

/-- A significand shifted by at least one bit is even. -/
theorem mul_two_pow_even (k : Nat) {sh : Nat} (hsh : 0 < sh) : k * 2 ^ sh % 2 = 0 := by
  obtain ⟨j, rfl⟩ : ∃ j, sh = j + 1 := ⟨sh - 1, by omega⟩
  rw [pow_succ, ← Nat.mul_assoc]
  exact Nat.mul_mod_left _ _

/-- The rounded root in steps of its shift: no midpoint between it and another step lies on the wrong
side of the sticky root. -/
theorem fsqrt_spec {x : F64} (hfin : isFinite x = true) (hpos : fsign x = false)
    (hmag : fmag x ≠ 0) :
    ∃ r sh, 0 < sh ∧ 2 ^ 52 ≤ r ∧ fmag (fsqrt x) = r * 2 ^ sh ∧
      2 ^ 52 * 2 ^ sh + 2 ^ 52 * 2 ^ sh ≤ stickyRoot (fmag x * funit) ∧
      (∀ k, r < k → stickyRoot (fmag x * funit) ≤ r * 2 ^ sh + k * 2 ^ sh) ∧
      ∀ k, k < r → r * 2 ^ sh + k * 2 ^ sh ≤ stickyRoot (fmag x * funit) := by
  have hroot := isFinite_fsqrt hfin hpos hmag
  rw [fsqrt_of_pos hfin hpos hmag] at hroot ⊢
  have hshift := roundShift_stickyRoot_pos hmag
  have hlow := significand_step_le Nat.two_pos hshift
  have hsig := (significand_bounds (stickyRoot (fmag x * funit)) Nat.two_pos).2
  have hmiddle := divNearestEven_midpoint (stickyRoot (fmag x * funit))
    (den := 2 * 2 ^ roundShift (stickyRoot (fmag x * funit)) 2) (by positivity)
  refine ⟨_, _, hshift, hsig.resolve_left hshift.ne',
    fmag_froundQ Nat.two_pos ((isFinite_froundQ _ _ _).1 hroot), ?_, fun k hk => ?_, fun k hk => ?_⟩
  · linarith
  · have := (hmiddle k).1 hk
    linarith
  · have := (hmiddle k).2 hk
    linarith

/-- The midpoint test above the rounded root: the other datum is even in units too, so the sticky bit
does not lie between the midpoint and the root. -/
theorem four_mul_le_sq_of_fsqrt_lt {x y : F64} (hfin : isFinite x = true) (hpos : fsign x = false)
    (hmag : fmag x ≠ 0) (hy : isFinite y = true) (hlt : fmag (fsqrt x) < fmag y) :
    4 * (fmag x * funit) ≤ (fmag (fsqrt x) + fmag y) * (fmag (fsqrt x) + fmag y) := by
  obtain ⟨r, sh, hsh, hr, hroot, -, habove, -⟩ := fsqrt_spec hfin hpos hmag
  have hreven := mul_two_pow_even r hsh
  have hrlow : 2 ^ 52 * 2 ^ sh ≤ r * 2 ^ sh := Nat.mul_le_mul_right _ hr
  rw [hroot] at hlt ⊢
  rcases fmag_multiple_or_lt hy sh with ⟨k, hk⟩ | ⟨-, hsmall⟩
  · have hkeven := mul_two_pow_even k hsh
    rw [hk] at hlt ⊢
    exact four_mul_le_sq_of_stickyRoot_le (habove k (Nat.lt_of_mul_lt_mul_right hlt)) (by omega)
  · omega

/-- The midpoint test below the rounded root: the midpoint is at or below the sticky root, and not odd
there, so it is at or below the root. -/
theorem sq_le_four_mul_of_lt_fsqrt {x y : F64} (hfin : isFinite x = true) (hpos : fsign x = false)
    (hmag : fmag x ≠ 0) (hy : isFinite y = true) (hlt : fmag y < fmag (fsqrt x)) :
    (fmag (fsqrt x) + fmag y) * (fmag (fsqrt x) + fmag y) ≤ 4 * (fmag x * funit) := by
  obtain ⟨r, sh, hsh, hr, hroot, hlow, -, hbelow⟩ := fsqrt_spec hfin hpos hmag
  have hreven := mul_two_pow_even r hsh
  have hsticky := stickyRoot_div_two (fmag x * funit)
  rw [hroot] at hlt ⊢
  rcases fmag_multiple_or_lt hy sh with ⟨k, hk⟩ | ⟨-, hsmall⟩
  · have hkeven := mul_two_pow_even k hsh
    rw [hk] at hlt ⊢
    have := hbelow k (Nat.lt_of_mul_lt_mul_right hlt)
    exact sq_le_four_mul_of_le_isqrt (by omega)
  · refine sq_le_four_mul_of_le_isqrt ?_
    rcases hr.eq_or_lt with rfl | hgt
    · omega
    · have := hbelow (2 ^ 52) hgt
      omega

/-- Settles O56. -/
theorem squareRootRoundsOnce : Obligations.SquareRootRoundsOnce := by
  intro x hfin hpos hmag
  refine ⟨isFinite_fsqrt hfin hpos hmag, ?_, fun y hy => ⟨?_, ?_⟩⟩
  · rw [fsqrt_of_pos hfin hpos hmag, fsign_froundQ]
  · exact four_mul_le_sq_of_fsqrt_lt hfin hpos hmag hy
  · exact sq_le_four_mul_of_lt_fsqrt hfin hpos hmag hy

end Sys2Proof.Machine

/-! PROOFS. The transforms (43_dct.md): the inner sums as left folds (R160 to R165), and the corner cases
of R161, a buffer of 128s and a single sample. -/

namespace Sys2Proof.Machine

/-! ## The inner sums as left folds -/

/-- The inner loop of `Dct` is a left fold over the samples with their indices (R161). -/
theorem dctSum_eq_foldl (cosFn : F64 → F64) (k N n : Nat) (s : F64) (X : List Byte) :
    dctSum cosFn k N n s X =
      (X.zipIdx n).foldl (fun s p => fadd s (fmul (recentre p.1) (dctCos cosFn p.2 k N))) s := by
  induction X generalizing n s with
  | nil => rfl
  | cons x xs ih => exact ih (n + 1) _

/-- The inner loop of `Recon` is a left fold over the coefficients with their indices (R162). -/
theorem reconSum_eq_foldl (cosFn : F64 → F64) (n N k : Nat) (s : F64) (T : List F64) :
    reconSum cosFn n N k s T =
      (T.zipIdx k).foldl
        (fun s p => fadd s (fmul (fmul (dctScale p.2 N) p.1) (dctCos cosFn n p.2 N))) s := by
  induction T generalizing k s with
  | nil => rfl
  | cons t ts ih => exact ih (k + 1) _

/-- An entry of a sequence made index by index. -/
theorem getD_map_range {α : Type} (f : Nat → α) (d : α) {j n : Nat} (h : j < n) :
    ((List.range n).map f).getD j d = f j := by
  rw [List.getD_eq_getElem _ _ (by simpa using h), List.getElem_map, List.getElem_range]

theorem dct_getD (cosFn : F64 → F64) {X : List Byte} {j : Nat} (h : j < X.length) :
    (dct cosFn X).getD j 0 =
      fmul (dctScale j X.length) (dctSum cosFn j X.length 0 (fzero false) X) :=
  getD_map_range _ _ h

theorem recon_getD (cosFn : F64 → F64) {T : List F64} {j : Nat} (h : j < T.length) :
    (recon cosFn T).getD j 0 =
      fadd (reconSum cosFn j T.length 0 (fzero false) T) f128 :=
  getD_map_range _ _ h

theorem idct_getD (cosFn : F64 → F64) (rnd : Bool) {T : List F64} {j : Nat} (h : j < T.length) :
    (idct cosFn rnd T).getD j 0 = conv rnd ((recon cosFn T).getD j 0) := by
  have hlen : j < (recon cosFn T).length := by simpa [recon] using h
  rw [idct, List.getD_eq_getElem _ _ (by simpa using hlen), List.getElem_map,
    List.getD_eq_getElem _ _ hlen]

/-- Settles O57. Argument and scale of the folds' terms are the definitions of R160. -/
theorem transformSumsAscend : Obligations.TransformSumsAscend := by
  intro cosFn j
  refine ⟨fun X hj => ?_, fun T hj => ⟨?_, fun rnd => idct_getD cosFn rnd hj⟩⟩
  · rw [dct_getD cosFn hj, dctSum_eq_foldl, dctScale_eq]
    rfl
  · rw [recon_getD cosFn hj, reconSum_eq_foldl]
    simp only [dctScale_eq]
    rfl

/-! ## Zero and one in sums and products (00_scope.md R10) -/

/-- A datum with magnitude 0 is a zero. -/
theorem fval_of_fmag_zero {x : F64} (h : fmag x = 0) : fval x = 0 := by
  rw [fval, h]
  split <;> rfl

/-- +0.0 plus a zero of either sign is +0.0. -/
theorem fadd_zero_of_fmag_zero {x : F64} (hfin : isFinite x = true) (h : fmag x = 0) :
    fadd 0 x = 0 := by
  have hzero : fval 0 + fval x = 0 := by
    rw [fval_of_fmag_zero rfl, fval_of_fmag_zero h, Int.add_zero]
  rw [fadd, isNaN_of_finite hfin, isInf_of_finite hfin, if_pos hzero]
  rfl

/-- +0.0 times a finite datum is a zero. -/
theorem fmul_zero_left {x : F64} (hfin : isFinite x = true) :
    isFinite (fmul 0 x) = true ∧ fmag (fmul 0 x) = 0 := by
  have hmag : fmag 0 = 0 := rfl
  rw [fmul_of_finite rfl hfin, hmag, Nat.zero_mul, froundQ_zero _ funit_pos, fzero]
  refine ⟨?_, fmag_fpack _ (by norm_num)⟩
  rw [isFinite_iff, fexp_fpack _ (by norm_num)]
  norm_num

theorem fmag_fOne : fmag fOne = funit := by
  have hexp : fexp fOne = 1023 := rfl
  have hfrac : ffrac fOne = 0 := rfl
  rw [fmag, hexp, hfrac, if_neg (by norm_num), Nat.add_zero, ← pow_add, funit]

/-- Times 1.0 on the right. -/
theorem fmul_fOne {x : F64} (hfin : isFinite x = true) : fmul x fOne = x := by
  rw [fmul_of_finite hfin rfl, fmag_fOne, show fsign fOne = false from rfl, Bool.bne_false,
    froundQ_fmag hfin funit_pos]

/-- Times 1.0 on the left. -/
theorem fOne_fmul {x : F64} (hfin : isFinite x = true) : fmul fOne x = x := by
  rw [fmul_of_finite rfl hfin, fmag_fOne, show fsign fOne = false from rfl, Bool.false_bne,
    Nat.mul_comm, froundQ_fmag hfin funit_pos]

/-- A finite datum of magnitude 0 with a positive sign is +0.0. -/
theorem eq_zero_of_fmag_zero {x : F64} (hfin : isFinite x = true) (hpos : fsign x = false)
    (h : fmag x = 0) : x = 0 := by
  have hround := froundQ_fmag hfin Nat.one_pos
  rw [h, Nat.zero_mul, froundQ_zero _ Nat.one_pos, hpos, fzero_false] at hround
  exact hround.symm

/-- The exact value of a datum that is not zero has its sign and its magnitude. -/
theorem fval_parts {x : F64} (h : 0 < fmag x) :
    fval x ≠ 0 ∧ decide (fval x < 0) = fsign x ∧ (fval x).natAbs = fmag x := by
  cases hsign : fsign x with
  | true =>
    have hval : fval x = -(fmag x : Int) := if_pos hsign
    exact ⟨by omega, decide_eq_true (by omega), by omega⟩
  | false =>
    have hval : fval x = fmag x := fval_of_pos hsign
    exact ⟨by omega, decide_eq_false (by omega), by omega⟩

/-- +0.0 plus a finite datum other than -0.0 is that datum. -/
theorem zero_fadd {x : F64} (hfin : isFinite x = true) (h : fmag x = 0 → fsign x = false) :
    fadd 0 x = x := by
  rcases Nat.eq_zero_or_pos (fmag x) with hzero | hpos
  · rw [fadd_zero_of_fmag_zero hfin hzero, eq_zero_of_fmag_zero hfin (h hzero) hzero]
  · have hval : fval 0 + fval x = fval x := by rw [fval_of_fmag_zero rfl, Int.zero_add]
    obtain ⟨hne, hsign, habs⟩ := fval_parts hpos
    rw [fadd_of_finite rfl hfin (by rwa [hval]), hval, hsign, habs, ← Nat.mul_one (fmag x),
      froundQ_fmag hfin Nat.one_pos]

/-! ## Integers and their quotients -/

/-- The magnitude of a rounding and whether it overflows do not depend on the sign. -/
theorem froundQ_sign_irrelevant (neg neg' : Bool) (num den : Nat) :
    isFinite (froundQ neg num den) = isFinite (froundQ neg' num den) ∧
      fmag (froundQ neg num den) = fmag (froundQ neg' num den) := by
  refine ⟨?_, ?_⟩
  · rw [Bool.eq_iff_iff, isFinite_froundQ, isFinite_froundQ]
  · rw [froundQ, froundQ, fmag_fpack _ (roundBits_lt num den), fmag_fpack _ (roundBits_lt num den)]

theorem f64OfInt_zero : f64OfInt 0 = 0 := by
  rw [f64OfInt, Int.natAbs_zero, Nat.zero_mul, froundQ_zero _ Nat.one_pos]
  rfl

/-- Signed integers up to 2^53 are exact. -/
theorem f64OfInt_exact {i : Int} (h : i.natAbs ≤ 2 ^ 53) :
    isFinite (f64OfInt i) = true ∧ fmag (f64OfInt i) = i.natAbs * funit ∧
      fsign (f64OfInt i) = decide (i < 0) := by
  obtain ⟨hfin, hmag, -⟩ := f64OfNat_exact h
  obtain ⟨hsameFin, hsameMag⟩ := froundQ_sign_irrelevant (decide (i < 0)) false (i.natAbs * funit) 1
  exact ⟨hsameFin.trans hfin, hsameMag.trans hmag, fsign_froundQ _ _ _⟩

theorem fmag_ne_zero_of_fexp {x : F64} (h : fexp x ≠ 0) : fmag x ≠ 0 := by
  rw [fmag, if_neg h]
  positivity

/-- A quotient of at least 2^53 units is rounded to a normal number. -/
theorem fexp_froundQ_ne_zero (neg : Bool) {num den : Nat} (hden : 0 < den)
    (h : 2 ^ 53 * den ≤ num) : fexp (froundQ neg num den) ≠ 0 := by
  have hquot : 2 ^ 53 ≤ num / den := (Nat.le_div_iff_mul_le hden).2 h
  have hshift := lt_roundShift_add le_rfl hquot
  rw [fexp_froundQ, roundBits_eq_min, unboundedBits]
  omega

/-- A quotient of integers, the upper one at most 2^53, does not overflow. -/
theorem isFinite_froundQ_integers (neg : Bool) {a n : Nat} (ha : a ≤ 2 ^ 53) (hn : 0 < n) :
    isFinite (froundQ neg (a * funit * funit) (n * funit)) = true := by
  have hbelow : a * funit * funit < 2 ^ (54 + 1074) * (n * funit) := by
    calc a * funit * funit < 2 ^ 54 * funit * funit :=
          Nat.mul_lt_mul_of_pos_right (Nat.mul_lt_mul_of_pos_right (by omega) funit_pos) funit_pos
      _ = 2 ^ (54 + 1074) * (1 * funit) := by rw [pow_add, ← funit, Nat.one_mul]
      _ ≤ 2 ^ (54 + 1074) * (n * funit) := Nat.mul_le_mul_left _ (Nat.mul_le_mul_right _ hn)
  exact isFinite_froundQ_of_lt (by norm_num) hbelow

/-- The quotient of two positive integers is a positive normal number: below 2^53 over at most 2^31
neither overflows nor underflows. -/
theorem fdiv_f64OfNat_normal {a n : Nat} (ha : 0 < a) (ha' : a ≤ 2 ^ 53) (hn : 0 < n)
    (hn' : n ≤ 2 ^ 31) :
    isFinite (fdiv (f64OfNat a) (f64OfNat n)) = true ∧
      fsign (fdiv (f64OfNat a) (f64OfNat n)) = false ∧
      fexp (fdiv (f64OfNat a) (f64OfNat n)) ≠ 0 := by
  obtain ⟨hfinA, hmagA, hsignA⟩ := f64OfNat_exact ha'
  obtain ⟨hfinN, hmagN, hsignN⟩ := f64OfNat_exact (n := n) (by omega)
  have hden : 0 < n * funit := Nat.mul_pos hn funit_pos
  rw [fdiv_of_finite hfinA hfinN (by rw [hmagN]; exact hden.ne'), hmagA, hmagN, hsignA, hsignN]
  have habove : 2 ^ 53 * (n * funit) ≤ a * funit * funit := by
    calc 2 ^ 53 * (n * funit) ≤ 2 ^ 53 * (2 ^ 31 * funit) :=
          Nat.mul_le_mul_left _ (Nat.mul_le_mul_right _ hn')
      _ = 2 ^ (53 + 31) * funit := by rw [pow_add, Nat.mul_assoc]
      _ ≤ funit * funit := Nat.mul_le_mul_right _ (two_pow_le_funit (by norm_num))
      _ ≤ a * funit * funit := Nat.mul_le_mul_right _ (Nat.le_mul_of_pos_left _ ha)
  exact ⟨isFinite_froundQ_integers _ ha' hn, fsign_froundQ _ _ _,
    fexp_froundQ_ne_zero _ hden habove⟩

/-! ## The sample minus 128 and the scale -/

theorem fval_fnegate_f128 : fval (fnegate f128) = -((128 * funit : Nat) : Int) := by
  have hsign : fsign (fnegate f128) = true := rfl
  have hexp : fexp (fnegate f128) = 1030 := rfl
  have hfrac : ffrac (fnegate f128) = 0 := rfl
  have hmag : fmag (fnegate f128) = 128 * funit := by
    rw [fmag, hexp, hfrac, if_neg (by norm_num), Nat.add_zero, funit, ← pow_add,
      show 128 = 2 ^ 7 by norm_num, ← pow_add]
  rw [fval, hsign, if_pos rfl, hmag]

/-- `f64(x) - 128.0` is exact: it is the integer `x - 128` (R161). -/
theorem recentre_eq (x : Byte) : recentre x = f64OfInt ((x.toNat : Int) - 128) := by
  obtain ⟨hfin, hmag, hsign⟩ := f64OfNat_exact (n := x.toNat) (by have := x.isLt; omega)
  have hsum : fval (f64OfNat x.toNat) + fval (fnegate f128) = ((x.toNat : Int) - 128) * funit := by
    rw [fval_of_pos hsign, hmag, fval_fnegate_f128]
    push_cast
    ring
  have hunit : (0 : Int) < funit := by exact_mod_cast funit_pos
  rw [recentre, fsub]
  rcases eq_or_ne ((x.toNat : Int) - 128) 0 with hzero | hne
  · rw [hzero, Int.zero_mul] at hsum
    rw [hzero, fadd, isNaN_of_finite hfin, isInf_of_finite hfin, if_pos hsum, hsign, f64OfInt_zero]
    rfl
  · have hne' : ((x.toNat : Int) - 128) * funit ≠ 0 := mul_ne_zero hne hunit.ne'
    rw [fadd_of_finite hfin rfl (by rwa [hsum]), hsum, f64OfInt, Int.natAbs_mul, Int.natAbs_natCast]
    congr 1
    rw [decide_eq_decide]
    exact ⟨fun h => neg_of_mul_neg_left h hunit.le, fun h => mul_neg_of_neg_of_pos h hunit⟩

/-- The scale is a finite datum with a positive sign (R160). -/
theorem dctScale_finite (k : Nat) {N : Nat} (hpos : 0 < N) (hN : N ≤ 2 ^ 31) :
    isFinite (dctScale k N) = true ∧ fsign (dctScale k N) = false := by
  have hone : fOne = f64OfNat 1 := by decide +kernel
  have htwo : fTwo = f64OfNat 2 := by decide +kernel
  obtain ⟨a, ha, ha', hscale⟩ : ∃ a, 0 < a ∧ a ≤ 2 ^ 53 ∧
      dctScale k N = fsqrt (fdiv (f64OfNat a) (f64OfNat N)) := by
    rw [dctScale, hone, htwo]
    split
    · exact ⟨1, by norm_num, by norm_num, rfl⟩
    · exact ⟨2, by norm_num, by norm_num, rfl⟩
  obtain ⟨hfin, hsign, hexp⟩ := fdiv_f64OfNat_normal ha ha' hpos hN
  have hmag := fmag_ne_zero_of_fexp hexp
  rw [hscale]
  refine ⟨isFinite_fsqrt hfin hsign hmag, ?_⟩
  rw [fsqrt_of_pos hfin hsign hmag, fsign_froundQ]

/-! ## The corner cases of R161 -/

/-- Every term of a buffer of 128s is a zero, so the sum stays +0.0. -/
theorem dctSum_replicate_128 {cosFn : F64 → F64} (hcos : ∀ x, isFinite (cosFn x) = true)
    (k N i n : Nat) : dctSum cosFn k N i 0 (List.replicate n 128) = 0 := by
  induction n generalizing i with
  | zero => rfl
  | succ n ih =>
    have hzero : recentre 128 = 0 := (recentre_eq 128).trans f64OfInt_zero
    obtain ⟨hfin, hmag⟩ := fmul_zero_left (hcos (dctArg i k N))
    rw [List.replicate_succ, dctSum, hzero, dctCos, fadd_zero_of_fmag_zero hfin hmag]
    exact ih (i + 1)

/-- Settles O58. Each coefficient is its scale, finite and positive, times the sum +0.0. -/
theorem flatBufferTransformsToZero : Obligations.FlatBufferTransformsToZero := by
  intro cosFn n hn hcos
  rw [dct, List.length_replicate, List.eq_replicate_iff]
  refine ⟨by simp, fun c hc => ?_⟩
  obtain ⟨k, hk, rfl⟩ := List.mem_map.1 hc
  have hpos : 0 < n := Nat.zero_lt_of_lt (List.mem_range.1 hk)
  obtain ⟨hfin, hsign⟩ := dctScale_finite k hpos hn
  rw [fzero_false, dctSum_replicate_128 hcos, fmul_zero_of_pos hfin hsign]

theorem dctScale_zero_one : dctScale 0 1 = fOne := by
  decide +kernel

/-- Settles O59. Scale and cosine are 1.0, and the sum starts from +0.0. -/
theorem singleSampleTransform : Obligations.SingleSampleTransform := by
  intro cosFn x hcos
  have hone : dctCos cosFn 0 0 1 = fOne := by
    rw [dctCos, dctArg_zero Nat.one_pos (by norm_num), hcos]
    rfl
  have hsmall : ((x.toNat : Int) - 128).natAbs ≤ 2 ^ 53 := by
    have := x.isLt
    omega
  obtain ⟨hfin, hmag, hsign⟩ := f64OfInt_exact hsmall
  rw [← recentre_eq] at hfin hmag hsign
  have hnotNegZero : fmag (recentre x) = 0 → fsign (recentre x) = false := by
    intro hzero
    rw [hmag, Nat.mul_eq_zero, or_iff_left funit_pos.ne'] at hzero
    rw [hsign, decide_eq_false_iff_not]
    omega
  have hterm : dctSum cosFn 0 1 0 (fzero false) [x] = recentre x := by
    rw [dctSum, dctSum, hone, fmul_fOne hfin, fzero_false, zero_fadd hfin hnotNegZero]
  calc dct cosFn [x] = [fmul (dctScale 0 1) (dctSum cosFn 0 1 0 (fzero false) [x])] := rfl
    _ = [recentre x] := by rw [hterm, dctScale_zero_one, fOne_fmul hfin]

end Sys2Proof.Machine

/-! PROOFS. The squared error of PSNR (41_psnr.md R131): the exact integer sum is the sequential binary64
sum, and the mean is zero exactly when the sum is. -/

namespace Sys2Proof.Machine

/-! ## Bounds on the sum -/

theorem squaredDiff_le (a b : Byte) : squaredDiff a b ≤ 65025 := by
  have habs : ((a.toNat : Int) - b.toNat).natAbs ≤ 255 := by
    have := a.isLt
    have := b.isLt
    omega
  exact Nat.pow_le_pow_left habs 2

/-- The sum over two buffers is the sum of the terms. -/
theorem sumSquares_eq_sum (A B : List Byte) :
    sumSquares A B = (List.zipWith squaredDiff A B).sum := by
  induction A generalizing B with
  | nil => rfl
  | cons a as ih =>
    cases B with
    | nil => rfl
    | cons b bs => rw [sumSquares_cons, ih, List.zipWith_cons_cons, List.sum_cons]

theorem sumSquares_le (A B : List Byte) : sumSquares A B ≤ 65025 * A.length := by
  induction A generalizing B with
  | nil => exact Nat.zero_le _
  | cons a as ih =>
    cases B with
    | nil => exact Nat.zero_le _
    | cons b bs =>
      have := squaredDiff_le a b
      have := ih bs
      rw [sumSquares_cons, List.length_cons]
      omega

/-! ## The sequential sum -/

/-- Sums of integers one by one are exact as long as the total is at most 2^53. -/
theorem foldl_fadd_f64OfNat (ds : List Nat) {total : Nat} (h : total + ds.sum ≤ 2 ^ 53) :
    ds.foldl (fun x d => fadd x (f64OfNat d)) (f64OfNat total) = f64OfNat (total + ds.sum) := by
  induction ds generalizing total with
  | nil => rfl
  | cons d ds ih =>
    rw [List.sum_cons, ← Nat.add_assoc] at h ⊢
    rw [List.foldl_cons, fadd_f64OfNat (by omega), ih h]

/-! ## The mean -/

/-- A mean of nothing is +0.0. -/
theorem fdiv_f64OfNat_zero {n : Nat} (hn : 0 < n) (hn' : n ≤ 2 ^ 31) :
    fdiv (f64OfNat 0) (f64OfNat n) = 0 := by
  obtain ⟨hfin, hmag, hsign⟩ := f64OfNat_exact (n := n) (by omega)
  rw [f64OfNat_zero, fzero_false, fdiv_zero_of_pos hfin hsign]
  rw [hmag]
  exact (Nat.mul_pos hn funit_pos).ne'

/-- Settles O52. The sum stays far below 2^53, and a quotient of positive integers in this range is
normal. -/
theorem squaredErrorSumIsExact : Obligations.SquaredErrorSumIsExact := by
  intro A B _ hlen
  have hsum : sumSquares A B < 2 ^ 47 := by
    have := sumSquares_le A B
    omega
  refine ⟨squaredDiff_le, hsum, ?_, fun hpos => ⟨?_, fun hne => ?_⟩⟩
  · have hfold := foldl_fadd_f64OfNat (List.zipWith squaredDiff A B) (total := 0) (by
      rw [Nat.zero_add, ← sumSquares_eq_sum]
      omega)
    rwa [Nat.zero_add, ← sumSquares_eq_sum, f64OfNat_zero, fzero_false] at hfold
  · constructor
    · intro hmean
      by_contra hne
      obtain ⟨-, -, hexp⟩ := fdiv_f64OfNat_normal (Nat.pos_of_ne_zero hne) (by omega) hpos hlen
      exact fmag_ne_zero_of_fexp hexp hmean
    · intro hzero
      rw [hzero, fdiv_f64OfNat_zero hpos hlen]
      rfl
  · obtain ⟨hfin, -, hexp⟩ := fdiv_f64OfNat_normal (Nat.pos_of_ne_zero hne) (by omega) hpos hlen
    exact ⟨hfin, hexp⟩

end Sys2Proof.Machine

/-! PROOFS. Quantization is idempotent up to 2^53 (44_quantizer.md R182). The rounded quotient `m` of the
first quantization is an integer; dividing the result by `q` again and rounding gives `m` back, also where
the product `m * q` = 2^53 + 1 was itself rounded. -/

namespace Sys2Proof.Machine

/-! ## Rounding is monotone -/

/-- A rounding does not fall below a datum that the exact quotient reaches. -/
theorem fmag_le_fmag_froundQ {neg : Bool} {num den : Nat} {z : F64} (hden : 0 < den)
    (hfin : isFinite (froundQ neg num den) = true) (hz : isFinite z = true)
    (h : fmag z * den ≤ num) : fmag z ≤ fmag (froundQ neg num den) := by
  have hnear := (roundingError_froundQ_le hden hfin hz).1
  by_contra hlt
  have hproduct := Nat.mul_lt_mul_of_pos_right (not_le.1 hlt) hden
  rw [roundingError, roundingError, ← Nat.cast_mul, ← Nat.cast_mul] at hnear
  omega

/-- A rounding does not rise above a datum that the exact quotient does not pass. -/
theorem fmag_froundQ_le_fmag {neg : Bool} {num den : Nat} {z : F64} (hden : 0 < den)
    (hfin : isFinite (froundQ neg num den) = true) (hz : isFinite z = true)
    (h : num ≤ fmag z * den) : fmag (froundQ neg num den) ≤ fmag z := by
  have hnear := (roundingError_froundQ_le hden hfin hz).1
  by_contra hlt
  have hproduct := Nat.mul_lt_mul_of_pos_right (not_le.1 hlt) hden
  rw [roundingError, roundingError, ← Nat.cast_mul, ← Nat.cast_mul] at hnear
  omega

/-! ## The integer that `rha` gives (00_scope.md R11) -/

/-- An integer is rounded to an integer: past 2^53 the step of the data is an integer too. -/
theorem fmag_froundQ_units {neg : Bool} {n : Nat}
    (hfin : isFinite (froundQ neg (n * funit) 1) = true) :
    ∃ k, fmag (froundQ neg (n * funit) 1) = k * funit := by
  rcases Nat.lt_or_ge n (2 ^ 53) with hsmall | hlarge
  · obtain ⟨-, hmag, -⟩ := f64OfNat_exact hsmall.le
    exact ⟨n, (froundQ_sign_irrelevant neg false _ 1).2.trans hmag⟩
  · have hquot : 2 ^ (53 + 1074) ≤ n * funit / 1 := by
      rw [Nat.div_one, pow_add]
      exact Nat.mul_le_mul_right _ hlarge
    have hshift := lt_roundShift_add (Nat.le_add_right ..) hquot
    obtain ⟨d, hd⟩ := Nat.exists_eq_add_of_le (show 1074 ≤ roundShift (n * funit) 1 by omega)
    rw [fmag_froundQ Nat.one_pos ((isFinite_froundQ _ _ _).1 hfin)]
    generalize divNearestEven _ _ = r
    refine ⟨r * 2 ^ d, ?_⟩
    rw [hd, pow_add, ← funit]
    ring

/-- A finite result of `rha` comes from a finite datum and is an integer with its sign. -/
theorem rha_integral {d : F64} (hfin : isFinite (rha d) = true) :
    ∃ k, fmag (rha d) = k * funit := by
  rw [rha] at hfin ⊢
  split at hfin
  next hd =>
    rw [if_pos hd]
    exact fmag_froundQ_units hfin
  next hd => exact absurd hfin hd

/-- A finite datum within half of an integer datum of its sign is rounded to that. -/
theorem rha_eq_of_near {d m : F64} {k : Nat} (hd : isFinite d = true) (hm : isFinite m = true)
    (hsign : fsign d = fsign m) (hk : fmag m = k * funit)
    (hlow : 2 * fmag m ≤ 2 * fmag d + funit) (hhigh : fmag d ≤ fmag m) : rha d = m := by
  have hquot : (2 * fmag d + funit) / (2 * funit) = k := by
    have hunit := funit_pos
    have hstep : k * (2 * funit) = 2 * (k * funit) := by ring
    have hnext : (k + 1) * (2 * funit) = 2 * (k * funit) + 2 * funit := by ring
    exact Nat.div_eq_of_lt_le (by omega) (by omega)
  rw [rha, if_pos hd, hquot, ← hk, hsign, ← Nat.mul_one (fmag m), froundQ_fmag hm Nat.one_pos]

/-! ## The quality factor as a datum -/

theorem f64OfInt_quality {q : Int} (hpos : 1 ≤ q) (hq : q < 2 ^ 31) :
    isFinite (f64OfInt q) = true ∧ fmag (f64OfInt q) = q.natAbs * funit ∧
      fsign (f64OfInt q) = false := by
  obtain ⟨hfin, hmag, hsign⟩ := f64OfInt_exact (i := q) (by omega)
  exact ⟨hfin, hmag, hsign.trans (decide_eq_false (by omega))⟩

/-! ## Results that are not finite -/

theorem isInf_finf (neg : Bool) : isInf (finf neg) = true := by
  cases neg <;> decide

/-- A product that is a NaN is the quiet NaN. -/
theorem fmul_of_isNaN {x y : F64} (h : isNaN (fmul x y) = true) : fmul x y = qNaN := by
  rw [fmul] at h ⊢
  split
  · rfl
  next hnan =>
    rw [if_neg hnan] at h
    split
    next hinf =>
      rw [if_pos hinf] at h
      split
      · rfl
      next hmag =>
        rw [if_neg hmag, isNaN_of_inf (isInf_finf _)] at h
        cases h
    next hinf =>
      rw [if_neg hinf, isNaN_froundQ] at h
      cases h

theorem fdiv_qNaN (y : F64) : fdiv qNaN y = qNaN := by
  rw [fdiv, isNaN_qNaN, Bool.true_or, if_pos rfl]

theorem fmul_qNaN (y : F64) : fmul qNaN y = qNaN := by
  rw [fmul, isNaN_qNaN, Bool.true_or, if_pos rfl]

theorem rha_qNaN : rha qNaN = qNaN := if_neg (by decide)

theorem quantOne_qNaN (q : Int) : quantOne q qNaN = qNaN := by
  rw [quantOne, fdiv_qNaN, rha_qNaN, fmul_qNaN]

/-- An infinity is determined by its sign. -/
theorem finf_fsign {x : F64} (h : isInf x = true) : finf (fsign x) = x := by
  obtain ⟨hexp, hfrac⟩ : fexp x = 2047 ∧ ffrac x = 0 := by simpa [isInf] using h
  have hparts := fpack_parts x
  rwa [hexp, hfrac] at hparts

theorem fmag_ne_zero_of_inf {x : F64} (h : isInf x = true) : fmag x ≠ 0 := by
  obtain ⟨hexp, -⟩ : fexp x = 2047 ∧ ffrac x = 0 := by simpa [isInf] using h
  exact fmag_ne_zero_of_fexp (by rw [hexp]; norm_num)

/-- An infinity divided by a finite datum with a positive sign. -/
theorem fdiv_inf {x y : F64} (hx : isInf x = true) (hy : isFinite y = true)
    (hpos : fsign y = false) : fdiv x y = x := by
  rw [fdiv, isNaN_of_inf hx, isNaN_of_finite hy, hx, isInf_of_finite hy, hpos, Bool.bne_false,
    finf_fsign hx]
  rfl

/-- An infinity times a finite datum with a positive sign that is not zero. -/
theorem fmul_inf {x y : F64} (hx : isInf x = true) (hy : isFinite y = true)
    (hpos : fsign y = false) (hmag : fmag y ≠ 0) : fmul x y = x := by
  rw [fmul, isNaN_of_inf hx, isNaN_of_finite hy, hx, isInf_of_finite hy, hpos, Bool.bne_false,
    finf_fsign hx, if_neg (not_or.2 ⟨fmag_ne_zero_of_inf hx, hmag⟩)]
  rfl

/-- A datum is a NaN, infinite or finite. -/
theorem nan_or_inf_or_finite (x : F64) :
    isNaN x = true ∨ isInf x = true ∨ isFinite x = true := by
  cases hnan : isNaN x with
  | true => exact .inl rfl
  | false =>
    cases hfin : isFinite x with
    | true => exact .inr (.inr rfl)
    | false => exact .inr (.inl (isInf_of_not_finite hnan hfin))

/-- A finite product with a positive finite datum comes from a finite factor. -/
theorem isFinite_left_of_fmul {x y : F64} (hy : isFinite y = true) (hpos : fsign y = false)
    (hmag : fmag y ≠ 0) (h : isFinite (fmul x y) = true) : isFinite x = true := by
  rcases nan_or_inf_or_finite x with hnan | hinf | hfin
  · rw [fmul, hnan, Bool.true_or, if_pos rfl] at h
    cases h
  · rwa [fmul_inf hinf hy hpos hmag] at h
  · exact hfin

/-! ## The second quantization -/

/-- A significand of at most 53 bits at a shift in range is the magnitude of a datum. -/
theorem exists_finite_of_fmag {j e : Nat} (hj : j < 2 ^ 53) (he : e ≤ 2045) :
    ∃ z, isFinite z = true ∧ fmag z = j * 2 ^ e :=
  ⟨_, froundQ_exact false hj he Nat.one_pos⟩

section Second

variable {m Q : F64} {k n : Nat}

/-- The product of two integer data is one rounding of an integer. -/
theorem fmul_of_integers (hm : isFinite m = true) (hQ : isFinite Q = true) (hk : fmag m = k * funit)
    (hn : fmag Q = n * funit) :
    fmul m Q = froundQ (fsign m != fsign Q) (k * n * funit) 1 := by
  rw [fmul_of_finite hm hQ, hk, hn, show k * funit * (n * funit) = k * n * funit * funit by ring,
    froundQ_mul_right _ _ funit_pos]

/-- The first product below the bound: it is exact, or the integer 2^53 + 1 rounded to 2^53. -/
theorem fmag_fmul_cases (hm : isFinite m = true) (hQ : isFinite Q = true) (hk : fmag m = k * funit)
    (hn : fmag Q = n * funit) (hfin : isFinite (fmul m Q) = true)
    (hbound : fmag (fmul m Q) ≤ 2 ^ 53 * funit) :
    fmag (fmul m Q) = k * n * funit ∨
      (k * n = 2 ^ 53 + 1 ∧ fmag (fmul m Q) = 2 ^ 53 * funit) := by
  rw [fmul_of_integers hm hQ hk hn] at hfin hbound ⊢
  have hunit := funit_pos
  rcases Nat.lt_trichotomy (k * n) (2 ^ 53 + 1) with hsmall | hcarry | hlarge
  · obtain ⟨-, hmag, -⟩ := f64OfNat_exact (Nat.le_of_lt_succ hsmall)
    exact .inl ((froundQ_sign_irrelevant _ false _ 1).2.trans hmag)
  · obtain ⟨hz, hmagz, -⟩ := f64OfNat_exact (n := 2 ^ 53) le_rfl
    have hreach : fmag (f64OfNat (2 ^ 53)) * 1 ≤ k * n * funit := by
      rw [hmagz, hcarry, Nat.mul_one]
      exact Nat.mul_le_mul_right _ (Nat.le_succ _)
    have hlow := fmag_le_fmag_froundQ Nat.one_pos hfin hz hreach
    rw [hmagz] at hlow
    exact .inr ⟨hcarry, le_antisymm hbound hlow⟩
  · obtain ⟨z, hz, hmagz⟩ := exists_finite_of_fmag (j := 2 ^ 52 + 1) (e := 1075) (by norm_num)
      (by norm_num)
    have hmagz' : fmag z = (2 ^ 53 + 2) * funit := by
      rw [hmagz, show 1075 = 1 + 1074 by norm_num, pow_add, ← funit]
      ring
    have hreach : fmag z * 1 ≤ k * n * funit := by
      rw [hmagz', Nat.mul_one]
      exact Nat.mul_le_mul_right _ hlarge
    have hlow := fmag_le_fmag_froundQ Nat.one_pos hfin hz hreach
    omega

/-- Where the product was exact, the quotient is `m` again. -/
theorem fdiv_fmul_of_exact (hm : isFinite m = true) (hQ : isFinite Q = true)
    (hpos : fsign Q = false) (hQ0 : fmag Q ≠ 0) (hfin : isFinite (fmul m Q) = true)
    (hexact : fmag (fmul m Q) * funit = fmag m * fmag Q) : fdiv (fmul m Q) Q = m := by
  have hsign : fsign (fmul m Q) = fsign m := by
    rw [fmul_of_finite hm hQ, fsign_froundQ, hpos, Bool.bne_false]
  rw [fdiv_of_finite hfin hQ hQ0, hsign, hpos, Bool.bne_false, hexact,
    froundQ_fmag hm (Nat.pos_of_ne_zero hQ0)]

/-- Where 2^53 + 1 was rounded to 2^53, the quality is at least 2: times 1.0 the product is `m`, a datum,
and no rounding takes place. -/
theorem two_le_of_carry (hm : isFinite m = true) (hQ : isFinite Q = true) (hk : fmag m = k * funit)
    (hn : fmag Q = n * funit) (hcarry : k * n = 2 ^ 53 + 1)
    (hmag : fmag (fmul m Q) = 2 ^ 53 * funit) : 2 ≤ n := by
  have hpos : n ≠ 0 := by
    rintro rfl
    omega
  have hne : n ≠ 1 := by
    rintro rfl
    have hself : froundQ (fsign m) (k * 1 * funit) 1 = m := by
      rw [Nat.mul_one, ← hk, ← Nat.mul_one (fmag m), froundQ_fmag hm Nat.one_pos]
    have hsame : fmag (fmul m Q) = fmag m := by
      rw [fmul_of_integers hm hQ hk hn, (froundQ_sign_irrelevant _ (fsign m) _ _).2, hself]
    rw [hsame, hk] at hmag
    have := Nat.eq_of_mul_eq_mul_right funit_pos hmag
    omega
  omega

/-- There the quotient lies between `m - 1/2` and `m`, which are both data, and is rounded to `m`. -/
theorem rha_fdiv_fmul_of_carry (hm : isFinite m = true) (hQ : isFinite Q = true)
    (hpos : fsign Q = false) (hk : fmag m = k * funit) (hn : fmag Q = n * funit)
    (hfin : isFinite (fmul m Q) = true) (hcarry : k * n = 2 ^ 53 + 1)
    (hmag : fmag (fmul m Q) = 2 ^ 53 * funit) : rha (fdiv (fmul m Q) Q) = m := by
  have htwo := two_le_of_carry hm hQ hk hn hcarry hmag
  have hunit := funit_pos
  have hden : 0 < n * funit := Nat.mul_pos (by omega) funit_pos
  have hsign : fsign (fmul m Q) = fsign m := by
    rw [fmul_of_finite hm hQ, fsign_froundQ, hpos, Bool.bne_false]
  have hquot : fdiv (fmul m Q) Q = froundQ (fsign m) (2 ^ 53 * funit * funit) (n * funit) := by
    rw [fdiv_of_finite hfin hQ (by rw [hn]; exact hden.ne'), hsign, hpos, Bool.bne_false, hmag, hn]
  have hquotFin := isFinite_froundQ_integers (fsign m) (a := 2 ^ 53) (n := n) le_rfl (by omega)
  obtain ⟨j, rfl⟩ : ∃ j, k = j + 1 := Nat.exists_eq_succ_of_ne_zero (by rintro rfl; omega)
  have hhalves : (2 * j + 1) * n + n = 2 * ((j + 1) * n) := by ring
  have hj : 2 * (j + 1) ≤ (j + 1) * n := by
    rw [Nat.mul_comm]
    exact Nat.mul_le_mul_left _ htwo
  obtain ⟨z, hz, hmagz⟩ := exists_finite_of_fmag (j := 2 * j + 1) (e := 1073) (by omega)
    (by norm_num)
  have hmagz2 : 2 * fmag z = (2 * j + 1) * funit := by
    rw [hmagz, ← fmag_fHalf, funit_eq_two_mul_fmag_fHalf]
    ring
  have hreach : fmag z * (n * funit) ≤ 2 ^ 53 * funit * funit := by
    refine Nat.le_of_mul_le_mul_left ?_ Nat.two_pos
    calc 2 * (fmag z * (n * funit)) = (2 * j + 1) * n * (funit * funit) := by
          rw [← Nat.mul_assoc, hmagz2]
          ring
      _ ≤ 2 * 2 ^ 53 * (funit * funit) := Nat.mul_le_mul_right _ (by omega)
      _ = 2 * (2 ^ 53 * funit * funit) := by ring
  have hlimit : 2 ^ 53 * funit * funit ≤ fmag m * (n * funit) := by
    calc 2 ^ 53 * funit * funit ≤ (j + 1) * n * funit * funit :=
          Nat.mul_le_mul_right _ (Nat.mul_le_mul_right _ (by omega))
      _ = fmag m * (n * funit) := by
          rw [hk]
          ring
  have hlow := fmag_le_fmag_froundQ hden hquotFin hz hreach
  have hhigh := fmag_froundQ_le_fmag hden hquotFin hm hlimit
  rw [hquot]
  refine rha_eq_of_near hquotFin hm (fsign_froundQ _ _ _) hk ?_ hhigh
  have hexpand : 2 * ((j + 1) * funit) = (2 * j + 1) * funit + funit := by ring
  omega

/-- Dividing the first result again gives the same integer. -/
theorem rha_fdiv_fmul (hm : isFinite m = true) (hQ : isFinite Q = true) (hpos : fsign Q = false)
    (hk : fmag m = k * funit) (hn : fmag Q = n * funit) (hn0 : 0 < n)
    (hfin : isFinite (fmul m Q) = true) (hbound : fmag (fmul m Q) ≤ 2 ^ 53 * funit) :
    rha (fdiv (fmul m Q) Q) = m := by
  rcases fmag_fmul_cases hm hQ hk hn hfin hbound with hexact | ⟨hcarry, hmag⟩
  · have hQ0 : fmag Q ≠ 0 := by
      rw [hn]
      exact (Nat.mul_pos hn0 funit_pos).ne'
    have hproduct : fmag (fmul m Q) * funit = fmag m * fmag Q := by
      rw [hexact, hk, hn]
      ring
    rw [fdiv_fmul_of_exact hm hQ hpos hQ0 hfin hproduct]
    exact rha_eq_of_near hm hm rfl hk (Nat.le_add_right _ _) le_rfl
  · exact rha_fdiv_fmul_of_carry hm hQ hpos hk hn hfin hcarry hmag

end Second

/-! ## Idempotence (R182) -/

theorem quantOne_of_nan {q : Int} {x : F64} (h : isNaN (quantOne q x) = true) :
    quantOne q (quantOne q x) = quantOne q x := by
  have hnan : quantOne q x = qNaN := fmul_of_isNaN h
  rw [hnan, quantOne_qNaN]

theorem quantOne_of_inf {q : Int} {y : F64} (hpos : 1 ≤ q) (hq : q < 2 ^ 31) (h : isInf y = true) :
    quantOne q y = y := by
  obtain ⟨hQ, hmag, hsign⟩ := f64OfInt_quality hpos hq
  have hQ0 : fmag (f64OfInt q) ≠ 0 := by
    rw [hmag]
    exact (Nat.mul_pos (by omega) funit_pos).ne'
  rw [quantOne, fdiv_inf h hQ hsign, rha_of_inf h, fmul_inf h hQ hsign hQ0]

theorem quantOne_of_bounded {q : Int} {x : F64} (hpos : 1 ≤ q) (hq : q < 2 ^ 31)
    (hfin : isFinite (quantOne q x) = true) (hbound : fmag (quantOne q x) ≤ 2 ^ 53 * funit) :
    quantOne q (quantOne q x) = quantOne q x := by
  obtain ⟨hQ, hmag, hsign⟩ := f64OfInt_quality hpos hq
  have hq0 : 0 < q.natAbs := by omega
  have hQ0 : fmag (f64OfInt q) ≠ 0 := by
    rw [hmag]
    exact (Nat.mul_pos hq0 funit_pos).ne'
  have hm := isFinite_left_of_fmul hQ hsign hQ0 hfin
  obtain ⟨k, hk⟩ := rha_integral hm
  exact congrArg (fmul · (f64OfInt q)) (rha_fdiv_fmul hm hQ hsign hk hmag hq0 hfin hbound)

/-- Settles O53. The three cases of the bound; the example past it is evaluated. -/
theorem quantIdempotentWithinBound : Obligations.QuantIdempotentWithinBound := by
  refine ⟨fun q x hpos hq hcases => ?_, by decide +kernel, by decide +kernel⟩
  rcases nan_or_inf_or_finite (quantOne q x) with hnan | hinf | hfin
  · exact quantOne_of_nan hnan
  · exact quantOne_of_inf hpos hq hinf
  · rw [isNaN_of_finite hfin, isInf_of_finite hfin] at hcases
    exact quantOne_of_bounded hpos hq hfin (by simpa using hcases)

end Sys2Proof.Machine
